-- ==== Sys2Proof/Word.lean ====
section
/-! DEFINITION. The bit-vector types of B32C: the widths of 00_scope.md R7. All values are unsigned (R9). -/

namespace Sys2Proof

/-- BYTE_W and SYM_W: a data byte, a symbol code unit, an output item (R7, R50). -/
abbrev Byte := BitVec 8

/-- CMD_W: a command word, and a host register's value (R7, R41, R60). -/
abbrev Word := BitVec 16

/-- GROUP_W: a group of 5 bits, the index of a symbol (R7, R12). -/
abbrev Group := BitVec 5

/-- ACC_W: the accumulator and the in-step temporary `t` (R7, R23). -/
abbrev Acc := BitVec 12

/-- CNT_W: the count of residual bits (R7, R24). -/
abbrev Cnt := BitVec 4

/-- REG_IDX_W: the index of a host register (R7, R41). -/
abbrev RegIndex := BitVec 2

end Sys2Proof
end

