-- ==== Sys2Proof/Machine/Alphabet.lean ====
section
/-! DEFINITION. The symbol table, a constant of the model (10_state.md R32), and its inverse lookup
(40_alphabet_lut.md R80 to R84). -/

namespace Sys2Proof.Machine

/-- The code units of 40_alphabet_lut.md R80, index 0 first: "a" to "z", then "2" to "7". -/
def alphabet : Vector Byte 32 :=
  #v[0x61, 0x62, 0x63, 0x64, 0x65, 0x66, 0x67, 0x68,
    0x69, 0x6A, 0x6B, 0x6C, 0x6D, 0x6E, 0x6F, 0x70,
    0x71, 0x72, 0x73, 0x74, 0x75, 0x76, 0x77, 0x78,
    0x79, 0x7A, 0x32, 0x33, 0x34, 0x35, 0x36, 0x37]

/-- `LUT[v]`, total on 5-bit values (40_alphabet_lut.md R81). -/
def lut (v : Group) : Byte := alphabet[v.toNat]'v.isLt

/-- `IDX(c)`, the closed form of 40_alphabet_lut.md R83. -/
def idx (c : Byte) : Option Group :=
  if 0x61 ≤ c.toNat ∧ c.toNat ≤ 0x7A then some (BitVec.ofNat 5 (c.toNat - 0x61))
  else if 0x32 ≤ c.toNat ∧ c.toNat ≤ 0x37 then some (BitVec.ofNat 5 (c.toNat - 0x32 + 26))
  else none

end Sys2Proof.Machine
end

