-- ==== Sys2Proof/Syntax.lean ====
section
/-! DEFINITION. The eight commands of B32C, one constructor per row of spec/opcode_table.json (30_encoding.md R61). -/

namespace Sys2Proof

/-- A legal command with its operand in the form of 30_encoding.md R62. An operand's type is its width, so every term
is a command that a legal word spells. -/
inductive Instr where
  /-- NOP (43_control.md R140). -/
  | nop
  /-- CLR (43_control.md R141). -/
  | clr
  /-- ENC_BYTE with the input byte `d = w[7:0]` (41_encoder.md R103). -/
  | encByte (d : Byte)
  /-- ENC_END (41_encoder.md R104). -/
  | encEnd
  /-- DEC_SYM with the code unit `c = w[7:0]`, alphabet symbol or not (42_decoder.md R122). -/
  | decSym (c : Byte)
  /-- DEC_END (42_decoder.md R123). -/
  | decEnd
  /-- LUT_SYM with the 5-bit value `v = w[4:0]` (40_alphabet_lut.md R85). -/
  | lutSym (v : Group)
  /-- LUT_IDX with the code unit `c = w[7:0]`, alphabet symbol or not (40_alphabet_lut.md R86). -/
  | lutIdx (c : Byte)
  deriving DecidableEq, Repr

end Sys2Proof
end

