-- ==== Sys2Proof/WellFormed.lean ====
section
/-! DEFINITION. Which commands are well formed: all of them. The two other places where the spec checks a form are
`legal` (a command word, 30_encoding.md R63, in Decode.lean) and `Asm.expand` (an assembler statement, 30_encoding.md
R67 and R68, in Machine/Asm.lean). -/

namespace Sys2Proof

/-- Every term of `Instr` is well formed: 30_encoding.md R62 bounds an operand only by its width, which is its type
(`d` and `c`: "0x00 to 0xFF, all values legal"; `v`: 0 to 31). -/
def Instr.wellFormed : Instr → Bool
  | .nop => true
  | .clr => true
  | .encByte _ => true
  | .encEnd => true
  | .decSym _ => true
  | .decEnd => true
  | .lutSym _ => true
  | .lutIdx _ => true

end Sys2Proof
end

