-- ==== Sys2Proof/Decode.lean ====
section
/-! DEFINITION. The command encoding of 30_encoding.md: fields (R60), legality (R63), the decoder (R66), the encoder
(R61, R66) and the opcode map as rows of match and mask (R61). -/

namespace Sys2Proof

/-- OP = w[15:12] (30_encoding.md R60). -/
def opField (w : Word) : BitVec 4 := w.extractLsb' 12 4

/-- RSV = w[11:8], must be zero (30_encoding.md R60). -/
def rsvField (w : Word) : BitVec 4 := w.extractLsb' 8 4

/-- OPD = w[7:0] (30_encoding.md R60). -/
def opdField (w : Word) : Byte := w.extractLsb' 0 8

/-- w[7:5], zero in a legal LUT_SYM (30_encoding.md R62). -/
def highOpd (w : Word) : BitVec 3 := w.extractLsb' 5 3

/-- v = w[4:0], the operand of LUT_SYM (30_encoding.md R62). -/
def groupField (w : Word) : Group := w.extractLsb' 0 5

/-- The legality predicate as 30_encoding.md R63 writes it, a conjunction of four clauses. -/
def legal (w : Word) : Bool :=
  opField w ≤ 7
    && rsvField w == 0
    && (!(opField w == 0x0 || opField w == 0x1 || opField w == 0x3 || opField w == 0x5) || opdField w == 0x00)
    && (!(opField w == 0x6) || highOpd w == 0b000)

/-- Why a word is illegal: the four bullets of 30_encoding.md R64, in its order. -/
inductive IllegalReason where
  /-- An opcode of 0x8 to 0xF. -/
  | reservedOpcode
  /-- A non-zero RSV field. -/
  | nonZeroRsv
  /-- NOP, CLR, ENC_END or DEC_END with a non-zero operand. -/
  | nonZeroOperand
  /-- LUT_SYM with a non-zero w[7:5]. -/
  | nonZeroHighOpd
  deriving DecidableEq, Repr

/-- A command without operand: its operand field must be zero (30_encoding.md R62). -/
def decodeBare (w : Word) (i : Instr) : Except IllegalReason Instr :=
  if opdField w = 0 then .ok i else .error .nonZeroOperand

/-- `decodeCmd` of 30_encoding.md R66, total on 16-bit words; `.error` is its `Illegal`, with the bullet of R64 that
makes the word illegal. It reads no state. -/
def decodeCmd (w : Word) : Except IllegalReason Instr :=
  if 8 ≤ (opField w).toNat then .error .reservedOpcode
  else if rsvField w ≠ 0 then .error .nonZeroRsv
  else match (opField w).toNat with
    | 0 => decodeBare w .nop
    | 1 => decodeBare w .clr
    | 2 => .ok (.encByte (opdField w))
    | 3 => decodeBare w .encEnd
    | 4 => .ok (.decSym (opdField w))
    | 5 => decodeBare w .decEnd
    | 6 => if highOpd w = 0 then .ok (.lutSym (groupField w)) else .error .nonZeroHighOpd
    | _ => .ok (.lutIdx (opdField w))

/-- `encodeCmd`, the patterns of 30_encoding.md R61. -/
def encodeCmd : Instr → Word
  | .nop => 0x0000#16
  | .clr => 0x1000#16
  | .encByte d => 0x20#8 ++ d
  | .encEnd => 0x3000#16
  | .decSym c => 0x40#8 ++ c
  | .decEnd => 0x5000#16
  | .lutSym v => 0b01100000000#11 ++ v
  | .lutIdx c => 0x70#8 ++ c

/-- One row of the opcode map: the fixed bits of a command's words (30_encoding.md R61, opcode_table.json). -/
structure OpcodeRow where
  mnemonic : String
  pattern : Word
  mask : Word
  deriving DecidableEq, Repr

/-- A word matches a row when it has the row's fixed bits. -/
def OpcodeRow.hits (r : OpcodeRow) (w : Word) : Bool := w &&& r.mask == r.pattern

/-- The match and mask list of 30_encoding.md R61. -/
def opcodeMap : List OpcodeRow :=
  [⟨"NOP", 0x0000, 0xFFFF⟩, ⟨"CLR", 0x1000, 0xFFFF⟩, ⟨"ENC_BYTE", 0x2000, 0xFF00⟩, ⟨"ENC_END", 0x3000, 0xFFFF⟩,
    ⟨"DEC_SYM", 0x4000, 0xFF00⟩, ⟨"DEC_END", 0x5000, 0xFFFF⟩, ⟨"LUT_SYM", 0x6000, 0xFFE0⟩,
    ⟨"LUT_IDX", 0x7000, 0xFF00⟩]

/-- The row of a command in the opcode map, by its mnemonic. -/
def Instr.mnemonic : Instr → String
  | .nop => "NOP"
  | .clr => "CLR"
  | .encByte _ => "ENC_BYTE"
  | .encEnd => "ENC_END"
  | .decSym _ => "DEC_SYM"
  | .decEnd => "DEC_END"
  | .lutSym _ => "LUT_SYM"
  | .lutIdx _ => "LUT_IDX"

/-- The 16-bit command word whose low `nbits` bits are those of `w` and whose other bits are 0. -/
def tableWord (nbits w : Nat) : Word := BitVec.ofNat 16 (w % 2 ^ nbits)

/-- The command the decoder reads from the table's word of `nbits` bits; the word crosses the host interface whole
(20_memory.md R48, R50; log 6). -/
def decodeTableWord (nbits w : Nat) : Option Instr :=
  match decodeCmd (tableWord nbits w) with
  | .ok i => some i
  | .error _ => none

end Sys2Proof
end

