-- ==== Sys2Proof/Machine/State.lean ====
section
/-! DEFINITION. The state of B32C (10_state.md R20) as plain data, with the host's side of its interface
(70_reset_and_hazards.md R190), and the state after reset (10_state.md R33). -/

namespace Sys2Proof.Machine

/-- MODE (10_state.md R21). -/
inductive Mode where
  /-- IDLE (0): no session is open. -/
  | idle
  /-- ENC (1): an encode session is open. -/
  | enc
  /-- DEC (2): a decode session is open. -/
  | dec
  /-- ERROR (3): an error has been recorded. -/
  | error
  deriving DecidableEq, Repr

/-- ECODE, the four values that are ever written (10_state.md R27; 93_implementation_defined.md Z2). -/
inductive ErrorCode where
  /-- NONE (0). -/
  | noError
  /-- INVALID_SYMBOL (1), 60_exceptions.md R151. -/
  | invalidSymbol
  /-- ILLEGAL_COMMAND (2), 60_exceptions.md R152. -/
  | illegalCommand
  /-- SEQUENCE_ERROR (3), 60_exceptions.md R153. -/
  | sequenceError
  deriving DecidableEq, Repr

/-- What the host can do to B32C (70_reset_and_hazards.md R190). -/
inductive Interaction where
  /-- Issue one command word, legal or not. -/
  | command (w : Word)
  /-- Read the register of an index. -/
  | readRegister (idx : RegIndex)
  /-- Take the oldest untaken output item. -/
  | takeItem
  /-- Assert reset. -/
  | assertReset
  deriving DecidableEq, Repr

/-- What the host gets back from an interaction (70_reset_and_hazards.md R190, last column). -/
inductive Response where
  /-- The value of a register read. -/
  | register (idx : RegIndex) (value : Word)
  /-- The item taken, or `none` where no untaken item is left (log 4). -/
  | item (b : Option Byte)
  deriving DecidableEq, Repr

/-- The machine: the block's seven elements (10_state.md R20) and, after them, three fields of the MODEL's own that hold
the host's side of the interface (70_reset_and_hazards.md R190; logs 1, 3, 4). -/
structure State where
  /-- MODE. -/
  mode : Mode
  /-- ACC, the residual bits, newest in bit 0 (10_state.md R22). -/
  acc : Acc
  /-- CNT, how many residual bits ACC holds (10_state.md R24). -/
  cnt : Cnt
  /-- ECODE, the first error since reset or CLR (10_state.md R27). -/
  ecode : ErrorCode
  /-- ECMD, the word that raised it (10_state.md R28). -/
  ecmd : Word
  /-- RESULT, of the last LUT command without error (10_state.md R30). -/
  result : Byte
  /-- out, the items emitted since reset, oldest first (10_state.md R29). -/
  out : List Byte
  /-- Model's own: how many items of `out` the host has taken. -/
  taken : Nat
  /-- Model's own: the host's interactions not yet performed, oldest first. -/
  pending : List Interaction
  /-- Model's own: what the host got back, oldest first. -/
  responses : List Response
  deriving DecidableEq, Repr

/-- Why the machine stops with a fault: never. Every error of 60_exceptions.md R150 is a recorded state change, and
"apart from the three errors of rule R150, no input makes B32C fail" (R160). No constructor: no command raises one
(log 8). -/
inductive Fault where
  deriving DecidableEq, Repr

/-- Why an instruction has no meaning. -/
inductive Refusal where
  /-- An arm of `exec` without a meaning. No arm raises it: all eight commands have their meaning (safe; log 8). -/
  | notModelled (mnemonic : String)
  deriving DecidableEq, Repr

/-- The state after reset: the values of 10_state.md R33, and a host that has done nothing yet (logs 1, 3, 4). -/
def State.reset : State where
  mode := .idle
  acc := 0x000
  cnt := 0
  ecode := .noError
  ecmd := 0x0000
  result := 0x00
  out := []
  taken := 0
  pending := []
  responses := []

end Sys2Proof.Machine
end

