-- ==== Sys2Proof/Machine/Flags.lean ====
section
/-! DEFINITION. Status: the numbers of MODE and ECODE, the mode table of SEQUENCE_ERROR, the four host registers and the
ERR output (10_state.md R21, R27; 20_memory.md R41 to R43; 60_exceptions.md R153, R161). -/

namespace Sys2Proof.Machine

/-- MODE as its 2-bit value (10_state.md R21). -/
def Mode.code : Mode → BitVec 2
  | .idle => 0
  | .enc => 1
  | .dec => 2
  | .error => 3

/-- ECODE as its 3-bit value (10_state.md R27). -/
def ErrorCode.code : ErrorCode → BitVec 3
  | .noError => 0
  | .invalidSymbol => 1
  | .illegalCommand => 2
  | .sequenceError => 3

/-- `allowed(cmd, MODE)`, the table of 60_exceptions.md R153. ERROR has no column there: the command step never asks
about it (R154). -/
def allowed : Instr → Mode → Bool
  | .nop, _ => true
  | .clr, _ => true
  | .encByte _, m => m == .idle || m == .enc
  | .encEnd, m => m == .idle || m == .enc
  | .decSym _, m => m == .idle || m == .dec
  | .decEnd, m => m == .idle || m == .dec
  | .lutSym _, m => m == .idle
  | .lutIdx _, m => m == .idle

/-- STATUS = `{0b00000, ECODE[2:0], CNT[3:0], 0b00, MODE[1:0]}` (20_memory.md R42). -/
def State.statusReg (s : State) : Word := 0b00000#5 ++ s.ecode.code ++ s.cnt ++ 0b00#2 ++ s.mode.code

/-- ACCR = `zext_16(ACC)` (20_memory.md R43). -/
def State.accReg (s : State) : Word := s.acc.setWidth 16

/-- RESULTR = `zext_16(RESULT)` (20_memory.md R43). -/
def State.resultReg (s : State) : Word := s.result.setWidth 16

/-- ECMDR = ECMD (20_memory.md R43). -/
def State.ecmdReg (s : State) : Word := s.ecmd

/-- The register space: 0 STATUS, 1 ACCR, 2 RESULTR, 3 ECMDR, every index defined (20_memory.md R41). -/
def State.readRegister (s : State) (i : RegIndex) : Word :=
  match i.toNat with
  | 0 => s.statusReg
  | 1 => s.accReg
  | 2 => s.resultReg
  | _ => s.ecmdReg

/-- The level of the ERR output, `MODE == ERROR` (60_exceptions.md R161). -/
def State.err (s : State) : Bool := s.mode == .error

end Sys2Proof.Machine
end

