-- ==== Sys2Proof/Machine/Operands.lean ====
section
/-! DEFINITION. Operands in wider arithmetic, bit slices and the writes `t mod 2^n` of the command rules
(00_scope.md R9; 30_encoding.md R62: an operand is zero-extended, never sign-extended, scaled or shifted). -/

namespace Sys2Proof.Machine

/-- `(ACC << 8) | zext_12(d)` (41_encoder.md R103). -/
def shiftInByte (acc : Acc) (d : Byte) : Acc := (acc <<< 8) ||| d.setWidth 12

/-- `(ACC << 5) | zext_12(v)` (42_decoder.md R122). -/
def shiftInGroup (acc : Acc) (v : Group) : Acc := (acc <<< 5) ||| v.setWidth 12

/-- `t[n-1 : n-5]`, the oldest group of the `n` newest bits of `t` (41_encoder.md R103). -/
def groupAt (t : Acc) (n : Nat) : Group := t.extractLsb' (n - 5) 5

/-- `t[n-1 : n-8]`, the oldest byte of the `n` newest bits of `t` (42_decoder.md R122). -/
def byteAt (t : Acc) (n : Nat) : Byte := t.extractLsb' (n - 8) 8

/-- `(ACC << (5 - CNT))[4:0]`, a short group padded on the right with `5 - n` zero bits (41_encoder.md R104). -/
def padGroup (acc : Acc) (n : Nat) : Group := (acc <<< (5 - n)).setWidth 5

/-- `t mod 2^n`, the `n` newest bits of `t` (41_encoder.md R103, 42_decoder.md R122). -/
def newestBits (t : Acc) (n : Nat) : Acc := BitVec.ofNat 12 (t.toNat % 2 ^ n)

/-- `zext_8(v)` (40_alphabet_lut.md R86). -/
def groupToByte (v : Group) : Byte := v.setWidth 8

end Sys2Proof.Machine
end

