-- ==== Sys2Proof/Machine/Ops.lean ====
section
/-! DEFINITION. The named operations over the state that the command rules share: `emit`, the writes of ACC and CNT, the
loop over complete groups, error entry (60_exceptions.md R155) and its exit (R157), and the command step's checks
(R154). -/

namespace Sys2Proof.Machine

/-- The three outcomes at this machine's types. -/
abbrev Result := Host.Outcome State Fault Refusal

/-- `emit`, for the items of one command in the order the rule emits them (00_scope.md R10). -/
def State.emit (s : State) (items : List Byte) : State := { s with out := s.out ++ items }

/-- `ACC <- t mod 2^n; CNT <- n`, the one form in which a data command writes ACC and CNT (10_state.md R25). -/
def State.setResidue (s : State) (t : Acc) (n : Nat) : State :=
  { s with acc := newestBits t n, cnt := BitVec.ofNat 4 n }

/-- `MODE <- m`. -/
def State.setMode (s : State) (m : Mode) : State := { s with mode := m }

/-- `RESULT <- r`. -/
def State.setResult (s : State) (r : Byte) : State := { s with result := r }

/-- `ACC <- 0; CNT <- 0; MODE <- IDLE`, the end of a session (41_encoder.md R104, 42_decoder.md R123). -/
def State.closeSession (s : State) : State := { s with acc := 0, cnt := 0, mode := .idle }

/-- The six writes of CLR, and the exit from ERROR mode (43_control.md R141; 60_exceptions.md R157). -/
def State.clear (s : State) : State :=
  { s with mode := .idle, acc := 0, cnt := 0, ecode := .noError, ecmd := 0x0000, result := 0x00 }

/-- `raise E(w)`: error entry, precise, writing MODE, ECODE and ECMD and nothing else (60_exceptions.md R155). -/
def State.raise (s : State) (e : ErrorCode) (w : Word) : State := { s with mode := .error, ecode := e, ecmd := w }

/-- What the host still has to do, replaced. -/
def State.setPending (s : State) (xs : List Interaction) : State := { s with pending := xs }

/-- One more thing the host got back. -/
def State.respond (s : State) (r : Response) : State := { s with responses := s.responses ++ [r] }

/-- The host's count of taken items, replaced. -/
def State.setTaken (s : State) (n : Nat) : State := { s with taken := n }

/-- The loop `while n >= 5: emit(LUT[t[n-1:n-5]]); n <- n - 5` of 41_encoder.md R103: the items it emits, in order, and
the `n` it ends with. A fuel of `n` is enough for every `n`. -/
def drainGroups (t : Acc) : (fuel n : Nat) → List Byte × Nat
  | 0, n => ([], n)
  | fuel + 1, n =>
    if 5 ≤ n then
      let rest := drainGroups t fuel (n - 5)
      (lut (groupAt t n) :: rest.1, rest.2)
    else ([], n)

/-- The command step's checks for a legal command (60_exceptions.md R154): in ERROR mode no effect (R156), in a mode
that forbids the command SEQUENCE_ERROR (R153), else the body of its rule. ECMD receives the command's own word, which
is the word that was issued (30_encoding.md R66; log 5). -/
def perform (i : Instr) (s : State) (body : State → Result) : Result :=
  if s.mode = .error then .next s
  else if allowed i s.mode then body s
  else .next (s.raise .sequenceError (encodeCmd i))

/-- The command step for an illegal word: no effect in ERROR mode, else ILLEGAL_COMMAND (60_exceptions.md R154). -/
def illegalCommand (w : Word) (s : State) : State :=
  if s.mode = .error then s else s.raise .illegalCommand w

end Sys2Proof.Machine
end

