-- ==== Sys2Proof/Machine/Control.lean ====
section
/-! DEFINITION. NOP and CLR (43_control.md). -/

namespace Sys2Proof.Machine

/-- NOP: no effect, in every mode (43_control.md R140). -/
def execNop (s : State) : Result := perform .nop s .next

/-- CLR: clear the session, the error and RESULT, in every mode; `out` stays (43_control.md R141). The command step
performs it in ERROR mode too (60_exceptions.md R154). -/
def execClr (s : State) : Result := .next s.clear

end Sys2Proof.Machine
end

