-- ==== Sys2Proof/Machine/Decoder.lean ====
section
/-! DEFINITION. The decoder's commands (42_decoder.md R122, R123). -/

namespace Sys2Proof.Machine

/-- The body of DEC_SYM for a valid symbol of index `v`: shift 5 bits in, emit a byte if 8 bits are there, keep the rest
(42_decoder.md R122). -/
def decSymBody (v : Group) (s : State) : State :=
  let t := shiftInGroup s.acc v
  let n := s.cnt.toNat + 5
  if 8 ≤ n then ((s.emit [byteAt t n]).setResidue t (n - 8)).setMode .dec
  else (s.setResidue t n).setMode .dec

/-- DEC_SYM: INVALID_SYMBOL if `IDX(c) = none`, before any bit enters ACC (42_decoder.md R122). -/
def execDecSym (c : Byte) (s : State) : Result :=
  perform (.decSym c) s fun s =>
    match idx c with
    | none => .next (s.raise .invalidSymbol (encodeCmd (.decSym c)))
    | some v => .next (decSymBody v s)

/-- DEC_END: the residual bits are discarded unread and the session ends (42_decoder.md R123). -/
def execDecEnd (s : State) : Result :=
  perform .decEnd s fun s => .next s.closeSession

end Sys2Proof.Machine
end

