-- ==== Sys2Proof/Machine/Encoder.lean ====
section
/-! DEFINITION. The encoder's commands (41_encoder.md R103, R104). -/

namespace Sys2Proof.Machine

/-- The body of ENC_BYTE: shift 8 bits in, emit every complete group, keep the rest (41_encoder.md R103). -/
def encByteBody (d : Byte) (s : State) : State :=
  let t := shiftInByte s.acc d
  let n := s.cnt.toNat + 8
  let drained := drainGroups t n n
  ((s.emit drained.1).setResidue t drained.2).setMode .enc

/-- ENC_BYTE (41_encoder.md R103). -/
def execEncByte (d : Byte) (s : State) : Result :=
  perform (.encByte d) s fun s => .next (encByteBody d s)

/-- The body of ENC_END: nothing in IDLE; in ENC the padded final group, if any bits are left, and the session's end
(41_encoder.md R104). -/
def encEndBody (s : State) : State :=
  if s.mode = .enc then
    if 0 < s.cnt.toNat then (s.emit [lut (padGroup s.acc s.cnt.toNat)]).closeSession else s.closeSession
  else s

/-- ENC_END (41_encoder.md R104). -/
def execEncEnd (s : State) : Result :=
  perform .encEnd s fun s => .next (encEndBody s)

end Sys2Proof.Machine
end

