-- ==== Sys2Proof/Machine/Lut.lean ====
section
/-! DEFINITION. The LUT commands (40_alphabet_lut.md R85, R86). -/

namespace Sys2Proof.Machine

/-- LUT_SYM: `RESULT <- LUT[v]` (40_alphabet_lut.md R85). -/
def execLutSym (v : Group) (s : State) : Result :=
  perform (.lutSym v) s fun s => .next (s.setResult (lut v))

/-- LUT_IDX: `RESULT <- zext_8(v)` where `IDX(c) = some v`, else INVALID_SYMBOL (40_alphabet_lut.md R86). -/
def execLutIdx (c : Byte) (s : State) : Result :=
  perform (.lutIdx c) s fun s =>
    match idx c with
    | none => .next (s.raise .invalidSymbol (encodeCmd (.lutIdx c)))
    | some v => .next (s.setResult (groupToByte v))

end Sys2Proof.Machine
end

