-- ==== Sys2Proof/Machine/Dispatch.lean ====
section
/-! DEFINITION. One arm per command: its meaning. -/

namespace Sys2Proof.Machine

def exec (i : Instr) (s : State) : Host.Outcome State Fault Refusal :=
  match i with
  | .nop => Sys2Proof.Machine.execNop s
  | .clr => Sys2Proof.Machine.execClr s
  | .encByte d => Sys2Proof.Machine.execEncByte d s
  | .encEnd => Sys2Proof.Machine.execEncEnd s
  | .decSym c => Sys2Proof.Machine.execDecSym c s
  | .decEnd => Sys2Proof.Machine.execDecEnd s
  | .lutSym v => Sys2Proof.Machine.execLutSym v s
  | .lutIdx c => Sys2Proof.Machine.execLutIdx c s

end Sys2Proof.Machine
end

