-- ==== Sys2Proof/Machine/HostPort.lean ====
section
/-! DEFINITION. The host's four interactions with B32C (70_reset_and_hazards.md R190) and the step that performs the
oldest one waiting. -/

namespace Sys2Proof.Machine

/-- Issue the command word `w`: the command step of 60_exceptions.md R154. The host gets nothing back directly. -/
def issueCommand (w : Word) (s : State) : Result :=
  match decodeCmd w with
  | .ok i => exec i s
  | .error _ => .next (illegalCommand w s)

/-- Read the register of index `i`: its value goes to the host and nothing of the block changes (20_memory.md R44). -/
def hostRead (i : RegIndex) (s : State) : State := s.respond (.register i (s.readRegister i))

/-- Take the oldest untaken item of `out`; B32C's own state does not change (10_state.md R29, 20_memory.md R50). Where
no untaken item is left the host gets none (log 4). -/
def hostTake (s : State) : State :=
  match s.out[s.taken]? with
  | some b => (s.setTaken (s.taken + 1)).respond (.item (some b))
  | none => s.respond (.item none)

/-- Reset: every element of the block to its reset value, untaken items lost (70_reset_and_hazards.md R180). What the
host has yet to do and what it got back are the host's, and stay (log 9). -/
def hostReset (s : State) : State :=
  { State.reset with pending := s.pending, responses := s.responses }

/-- One interaction of the host, performed atomically (70_reset_and_hazards.md R190). -/
def interact (x : Interaction) (s : State) : Result :=
  match x with
  | .command w => issueCommand w s
  | .readRegister i => .next (hostRead i s)
  | .takeItem => .next (hostTake s)
  | .assertReset => .next (hostReset s)

/-- Perform the oldest waiting interaction. With none waiting the block holds its state, since nothing but a command or
reset changes it (60_exceptions.md R167; log 2). -/
def stepHost (s : State) : Result :=
  match s.pending with
  | [] => .next s
  | x :: rest => interact x (s.setPending rest)

/-- The host's next interaction is to issue `w`, before whatever was waiting. -/
def State.issueNext (s : State) (w : Word) : State := s.setPending (.command w :: s.pending)

end Sys2Proof.Machine
end

