-- ==== Sys2Proof/Machine/Step.lean ====
section
/-! DEFINITION. One step of the machine: one interaction of the host (70_reset_and_hazards.md R190). -/

namespace Sys2Proof.Machine

/-- One step: the oldest waiting interaction, performed whole (20_memory.md R50, R51). -/
def step (s : State) : Host.Outcome State Fault Refusal := stepHost s

/-- `s` with the table's word as the host's next command: B32C holds no program and fetches nothing, its commands arrive
from the host (10_state.md R31, 20_memory.md R53; log 1). -/
def State.withFetchWord (s : State) (nbits w : Nat) : State := s.issueNext (tableWord nbits w)

end Sys2Proof.Machine
end

