-- ==== Sys2Proof/Machine/Asm.lean ====
section
/-! DEFINITION. The assembler's statements, their expansion into commands, and the reading of a source text
(30_encoding.md R67, R68). Lexical details the rules leave open are in log 11. -/

namespace Sys2Proof.Machine.Asm

/-- A code-unit operand: a number or a character literal (30_encoding.md R67). -/
inductive UnitOperand where
  | num (n : Nat)
  | chr (c : Char)
  deriving DecidableEq, Repr

/-- One statement of a source line: the eight commands (R67) and the pseudo-instructions (R68). -/
inductive Stmt where
  | nop
  | clr
  | encByte (imm8 : Nat)
  | encEnd
  | decSym (imm8 : UnitOperand)
  | decEnd
  | lutSym (imm5 : Nat)
  | lutIdx (imm8 : UnitOperand)
  /-- `ENCODE b0, b1, ..., b(n-1)`. -/
  | encodeBytes (bs : List Nat)
  /-- `ENCODE "text"`. -/
  | encodeText (cs : List Char)
  /-- `DECODE "text"`. -/
  | decodeText (cs : List Char)
  | resetSession
  deriving DecidableEq, Repr

/-- A number 0..255 (30_encoding.md R67). -/
def imm8 (n : Nat) : Option Byte := if n < 256 then some (BitVec.ofNat 8 n) else none

/-- A number 0..31 (30_encoding.md R67). -/
def imm5 (n : Nat) : Option Group := if n < 32 then some (BitVec.ofNat 5 n) else none

/-- The code unit of an alphabet character; the assembler takes no other characters (30_encoding.md R67). -/
def symbolChar (c : Char) : Option Byte :=
  match imm8 c.toNat with
  | some b => if (idx b).isSome then some b else none
  | none => none

/-- The byte of a text character, a code point 0x00 to 0x7F (30_encoding.md R68). -/
def textChar (c : Char) : Option Byte := if c.toNat < 128 then some (BitVec.ofNat 8 c.toNat) else none

/-- A number can spell any code unit, a character literal only a symbol (30_encoding.md R67). -/
def codeUnit : UnitOperand → Option Byte
  | .num n => imm8 n
  | .chr c => symbolChar c

/-- The commands a statement stands for, or `none` where the assembler refuses an operand out of range
(30_encoding.md R67, R68). -/
def expand : Stmt → Option (List Instr)
  | .nop => some [.nop]
  | .clr => some [.clr]
  | .encByte n => (imm8 n).map fun d => [.encByte d]
  | .encEnd => some [.encEnd]
  | .decSym o => (codeUnit o).map fun c => [.decSym c]
  | .decEnd => some [.decEnd]
  | .lutSym n => (imm5 n).map fun v => [.lutSym v]
  | .lutIdx o => (codeUnit o).map fun c => [.lutIdx c]
  | .encodeBytes ns => (ns.mapM imm8).map fun bs => bs.map .encByte ++ [.encEnd]
  | .encodeText cs => (cs.mapM textChar).map fun bs => bs.map .encByte ++ [.encEnd]
  | .decodeText cs => (cs.mapM symbolChar).map fun t => t.map .decSym ++ [.decEnd]
  | .resetSession => some [.clr]

/-- The double quote that encloses a text. -/
def quoteMark : Char := Char.ofNat 34

/-- The single quote that encloses a character literal. -/
def tick : Char := Char.ofNat 39

/-- A line up to the `;` that starts its comment; a `;` inside a quoted text is part of the text (log 11). -/
def stripComment (inText : Bool) : List Char → List Char
  | [] => []
  | c :: cs =>
    if c = quoteMark then c :: stripComment (!inText) cs
    else if c = ';' ∧ inText = false then []
    else c :: stripComment inText cs

/-- Without spaces and tabs at either end. -/
def trim (cs : List Char) : List Char :=
  ((cs.dropWhile Char.isWhitespace).reverse.dropWhile Char.isWhitespace).reverse

/-- The value of a decimal digit. -/
def decDigit (c : Char) : Option Nat := if c.isDigit then some (c.toNat - 48) else none

/-- The value of a hexadecimal digit, in either case (log 11). -/
def hexDigit (c : Char) : Option Nat :=
  if c.isDigit then some (c.toNat - 48)
  else if 97 ≤ c.toNat ∧ c.toNat ≤ 102 then some (c.toNat - 87)
  else if 65 ≤ c.toNat ∧ c.toNat ≤ 70 then some (c.toNat - 55)
  else none

/-- A non-empty string of digits as a number. -/
def digits (base : Nat) (digit : Char → Option Nat) (cs : List Char) : Option Nat :=
  if cs.isEmpty then none
  else (cs.mapM digit).map fun ds => ds.foldl (fun n d => base * n + d) 0

/-- A number in decimal or `0x` hexadecimal (30_encoding.md R67). -/
def number : List Char → Option Nat
  | '0' :: 'x' :: ds => digits 16 hexDigit ds
  | ds => digits 10 decDigit ds

/-- A number or a character literal (30_encoding.md R67). -/
def unitOperand (cs : List Char) : Option UnitOperand :=
  match cs with
  | [a, c, b] => if a = tick ∧ b = tick then some (.chr c) else (number cs).map .num
  | _ => (number cs).map .num

/-- The characters between the quotes of a quoted text, which holds no further quote (log 11). -/
def quoted (cs : List Char) : Option (List Char) :=
  match cs with
  | a :: rest =>
    match rest.reverse with
    | b :: inside => if a = quoteMark ∧ b = quoteMark ∧ quoteMark ∉ inside then some inside.reverse else none
    | [] => none
  | [] => none

/-- The operand of ENCODE: nothing, a quoted text, or numbers between commas (30_encoding.md R68). -/
def encodeOperand (cs : List Char) : Option Stmt :=
  if cs.isEmpty then some (.encodeBytes [])
  else if cs.head? = some quoteMark then (quoted cs).map .encodeText
  else ((cs.splitOn ',').mapM fun p => number (trim p)).map .encodeBytes

/-- A statement without operand. -/
def bare (operand : List Char) (st : Stmt) : Option Stmt := if operand.isEmpty then some st else none

/-- A mnemonic and its operand (30_encoding.md R67, R68). -/
def statement (mnemonic operand : List Char) : Option Stmt :=
  match String.ofList mnemonic with
  | "NOP" => bare operand .nop
  | "CLR" => bare operand .clr
  | "ENC_BYTE" => (number operand).map .encByte
  | "ENC_END" => bare operand .encEnd
  | "DEC_SYM" => (unitOperand operand).map .decSym
  | "DEC_END" => bare operand .decEnd
  | "LUT_SYM" => (number operand).map .lutSym
  | "LUT_IDX" => (unitOperand operand).map .lutIdx
  | "ENCODE" => encodeOperand operand
  | "DECODE" => (quoted operand).map .decodeText
  | "RESET_SESSION" => bare operand .resetSession
  | _ => none

/-- The commands of one source line: none for an empty line or a comment, refused (`none`) where it is no statement or an
operand is out of range (30_encoding.md R67). -/
def line (cs : List Char) : Option (List Instr) :=
  match trim (stripComment false cs) with
  | [] => some []
  | c :: rest =>
    let word := (c :: rest).takeWhile fun c => !c.isWhitespace
    (statement word (trim ((c :: rest).dropWhile fun c => !c.isWhitespace))).bind expand

/-- The command words of a source text, one statement a line (30_encoding.md R67). -/
def assemble (source : List Char) : Option (List Word) :=
  ((source.splitOn '\n').mapM line).map fun is => is.flatten.map encodeCmd

end Sys2Proof.Machine.Asm
end

