-- ==== Sys2Proof/Machine/Reference.lean ====
section
/-! DEFINITION. The reference functions on whole sequences: `bits` and `enc` (41_encoder.md R100, R101) and `dec`
(42_decoder.md R120). A bit sequence is a list whose head is first in stream order (00_scope.md R9). -/

namespace Sys2Proof.Machine

/-- The `w` bits of a value, most significant first (20_memory.md R45, R47). -/
def bitsOf {w : Nat} (v : BitVec w) : List Bool := (List.range w).map fun i => v.getLsbD (w - 1 - i)

/-- `bits(b)`: each byte's 8 bits, most significant first, in input order (41_encoder.md R100). -/
def bits (b : List Byte) : List Bool := b.flatMap bitsOf

/-- `value`: the bits read as an unsigned number, first bit most significant (41_encoder.md R101). -/
def value (g : List Bool) : Nat := g.foldl (fun v b => 2 * v + b.toNat) 0

/-- The consecutive `k`-bit groups of a sequence, left to right; group `j` is bits `kj` to `kj + k - 1`
(20_memory.md R46, R47). -/
def groups (k : Nat) (s : List Bool) : List (List Bool) :=
  (List.range (s.length / k)).map fun j => (s.drop (k * j)).take k

/-- Right-padding of a short final group with zero bits (41_encoder.md R101). -/
def padBits (s : List Bool) : List Bool :=
  if s.length % 5 = 0 then s else s ++ List.replicate (5 - s.length % 5) false

/-- The reference encoder `enc(b)` (41_encoder.md R101). -/
def encRef (b : List Byte) : List Byte :=
  (groups 5 (padBits (bits b))).map fun g => lut (BitVec.ofNat 5 (value g))

/-- The indices of a text's symbols, or `none` if one is no symbol (42_decoder.md R120). -/
def indices (t : List Byte) : Option (List Group) := t.mapM idx

/-- The bytes in the first `floor(len / 8) * 8` bits of a stream; the remainder is discarded unread
(42_decoder.md R120, R121). -/
def wholeBytes (s : List Bool) : List Byte :=
  (groups 8 (s.take (s.length / 8 * 8))).map fun g => BitVec.ofNat 8 (value g)

/-- The reference decoder `dec(t)`; `none` is its failure InvalidSymbol (42_decoder.md R120). -/
def decRef (t : List Byte) : Option (List Byte) :=
  match indices t with
  | none => none
  | some vs => some (wholeBytes (vs.flatMap bitsOf))

end Sys2Proof.Machine
end

