-- ==== Sys2Proof/Machine/Run.lean ====
section
/-! DEFINITION. Runs of a finite list of interactions (70_reset_and_hazards.md R191), and the command lists of sessions
(00_scope.md R13). -/

namespace Sys2Proof.Machine

/-- `k` steps. -/
def steps : (k : Nat) → State → Result
  | 0, s => .next s
  | k + 1, s =>
    match step s with
    | .next t => steps k t
    | .fault r => .fault r
    | .refused r => .refused r

/-- The run of `xs` from `s`: the host queues `xs` and the machine takes one step for each (70_reset_and_hazards.md
R191). -/
def run (xs : List Interaction) (s : State) : Result := steps xs.length (s.setPending xs)

/-- The states of a run after each of its interactions, in order (70_reset_and_hazards.md R191: a run never ends in the
middle of a command). -/
def trace : List Interaction → State → List State
  | [], _ => []
  | x :: xs, s =>
    match interact x s with
    | .next t => t :: trace xs t
    | _ => []

/-- The host issues these commands, by their words. -/
def issue (is : List Instr) : List Interaction := is.map fun i => .command (encodeCmd i)

/-- `ENC_BYTE b0, ..., ENC_BYTE b(n-1)`: an encode session still open. -/
def encBytes (b : List Byte) : List Instr := b.map .encByte

/-- `DEC_SYM t0, ..., DEC_SYM t(L-1)`: a decode session still open. -/
def decSyms (t : List Byte) : List Instr := t.map .decSym

/-- A whole encode session, `ENC_BYTE* ENC_END` (00_scope.md R13). -/
def encSession (b : List Byte) : List Instr := encBytes b ++ [.encEnd]

/-- A whole decode session, `DEC_SYM* DEC_END` (00_scope.md R13). -/
def decSession (t : List Byte) : List Instr := decSyms t ++ [.decEnd]

/-- The observation of a run: `out` and the four registers (70_reset_and_hazards.md R191). -/
def State.observe (s : State) : List Byte × List Word := (s.out, [s.statusReg, s.accReg, s.resultReg, s.ecmdReg])

end Sys2Proof.Machine
end

