-- ==== Sys2Proof/Safety.lean ====
section
/-! DEFINITION. What claims call a good state and a good run: the invariants between commands (10_state.md R25, R26), the
launch premises of a run (R35), and the items a host must discard (70_reset_and_hazards.md R186). -/

namespace Sys2Proof.Machine

/-- INV_ACC: `ACC < 2^CNT` (10_state.md R25). -/
abbrev InvAcc (s : State) : Prop := s.acc.toNat < 2 ^ s.cnt.toNat

/-- INV_MODE, its five lines as they bind one state (10_state.md R26). -/
abbrev InvMode (s : State) : Prop :=
  (s.mode = .idle → s.acc = 0 ∧ s.cnt = 0) ∧
  (s.mode = .enc → s.cnt.toNat ≤ 4) ∧
  (s.mode = .dec → s.cnt.toNat ≤ 7) ∧
  (s.mode = .error → s.cnt.toNat ≤ 7 ∧ s.ecode ≠ .noError) ∧
  (s.mode ≠ .error → s.ecode = .noError ∧ s.ecmd = 0x0000)

/-- The host has taken no more items than there are (model's own field, log 4). -/
abbrev InvTaken (s : State) : Prop := s.taken ≤ s.out.length

/-- The invariant of every state between interactions, and the launch premise of a run that does not start at reset
(10_state.md R35). -/
abbrev BlockInv (s : State) : Prop := InvAcc s ∧ InvMode s ∧ InvTaken s

/-- A run is safe when it ends in a state, not in a fault or a refusal. -/
def Completes (r : Result) : Prop := ∃ t, r = .next t

/-- `s` with the word `w` as the host's next command. -/
abbrev State.given (s : State) (w : Word) : State := { s with pending := .command w :: s.pending }

/-- `s` after error entry as 60_exceptions.md R155 writes it: three writes and no other. -/
abbrev State.inError (s : State) (e : ErrorCode) (w : Word) : State := { s with mode := .error, ecode := e, ecmd := w }

/-- The items emitted over the states of a run after `s`, oldest first, each with whether an error aborted its session:
`sofar` holds the items emitted since MODE last left IDLE. A step that enters ERROR condemns them and a step that reaches
IDLE clears them; those of a session still open at the end of the run are not condemned (70_reset_and_hazards.md R186). -/
def markItems (sofar : List Byte) (s : State) : List State → List (Byte × Bool)
  | [] => sofar.map (·, false)
  | t :: rest =>
    let items := sofar ++ t.out.drop s.out.length
    match t.mode with
    | .idle => items.map (·, false) ++ markItems [] t rest
    | .error => items.map (·, true) ++ markItems [] t rest
    | .enc | .dec => markItems items t rest

/-- The items a run from `s` emits, oldest first, each with whether its session was aborted; no session is open at `s`
(log 16). -/
def emittedItems (xs : List Interaction) (s : State) : List (Byte × Bool) := markItems [] s (trace xs s)

/-- The items of a run that the host must discard: those of every session that an error aborted, whatever the host did
afterwards (70_reset_and_hazards.md R186). -/
def voidItems (xs : List Interaction) (s : State) : List Byte := ((emittedItems xs s).filter (·.2)).map (·.1)

end Sys2Proof.Machine
end

