-- ==== Sys2Proof/Certificates/Slice0/Obligations.lean ====
section
/-! DEFINITION. The statements about B32C, from the numbered rules of spec/. A statement about one command gives the whole
next state, so its frame is part of it: every field not written is unchanged. Premises are on the state and operands
alone; `BlockInv` is the launch premise of 10_state.md R35, itself stated below. -/

open Sys2Proof Sys2Proof.Machine

/-! ### Encoding -/

/-- 30_encoding.md R66: decoder and encoder are inverse, the encoder has the patterns of R61, and a word decodes exactly
when it is legal. -/
def Obligations.DecoderAndEncoderAreInverse : Prop :=
  (∀ i, decodeCmd (encodeCmd i) = .ok i) ∧
  (∀ w i, decodeCmd w = .ok i → encodeCmd i = w) ∧
  (∀ w, legal w = true ↔ ∃ i, decodeCmd w = .ok i) ∧
  (∀ i, (encodeCmd i).toNat = match i with
    | .nop => 0x0000
    | .clr => 0x1000
    | .encByte d => 0x2000 + d.toNat
    | .encEnd => 0x3000
    | .decSym c => 0x4000 + c.toNat
    | .decEnd => 0x5000
    | .lutSym v => 0x6000 + v.toNat
    | .lutIdx c => 0x7000 + c.toNat)

/-- 30_encoding.md R63: the legality predicate on the bits of a word, and its counts: 804 legal words, so many of each
mnemonic. -/
def Obligations.LegalWordsAreCounted : Prop :=
  (∀ w : Word, legal w = true ↔
    w.toNat / 0x1000 ≤ 7 ∧ w.toNat / 0x100 % 0x10 = 0 ∧
    (w.toNat / 0x1000 ∈ [0x0, 0x1, 0x3, 0x5] → w.toNat % 0x100 = 0) ∧
    (w.toNat / 0x1000 = 0x6 → w.toNat / 0x20 % 8 = 0)) ∧
  (∃ ws : List Word, ws.Nodup ∧ ws.length = 804 ∧ ∀ w, w ∈ ws ↔ legal w = true) ∧
  (∀ r ∈ [("NOP", 1), ("CLR", 1), ("ENC_BYTE", 256), ("ENC_END", 1), ("DEC_SYM", 256), ("DEC_END", 1),
      ("LUT_SYM", 32), ("LUT_IDX", 256)],
    ∃ ws : List Word, ws.Nodup ∧ ws.length = r.2 ∧ ∀ w, w ∈ ws ↔ ∃ i, decodeCmd w = .ok i ∧ i.mnemonic = r.1)

/-- 30_encoding.md R61, R66: exactly one row of the opcode map has the fixed bits of a legal word, the row of the command
it decodes to, and no row those of an illegal word. -/
def Obligations.OneOpcodeRowPerLegalWord : Prop :=
  ∀ w, (opcodeMap.filter fun r => r.hits w).map OpcodeRow.mnemonic = match decodeCmd w with
    | .ok i => [i.mnemonic]
    | .error _ => []

/-- 30_encoding.md R61, R64: words written out bit by bit from the opcode map decode to the commands they stand for, and
one word for each bullet of R64 does not decode. Which reason the decoder names for such a word is the model's choice
(log 12). -/
def Obligations.SpecWordsDecode : Prop :=
  decodeCmd 0b0000000000000000 = .ok .nop ∧
  decodeCmd 0b0001000000000000 = .ok .clr ∧
  decodeCmd 0b0010000010100101 = .ok (.encByte 0xA5) ∧
  decodeCmd 0b0011000000000000 = .ok .encEnd ∧
  decodeCmd 0b0100000001101101 = .ok (.decSym 0x6D) ∧
  decodeCmd 0b0101000000000000 = .ok .decEnd ∧
  decodeCmd 0b0110000000010110 = .ok (.lutSym 0b10110) ∧
  decodeCmd 0b0111000000110111 = .ok (.lutIdx 0x37) ∧
  decodeCmd 0b1000000000000000 = .error .reservedOpcode ∧
  decodeCmd 0b0010000101100001 = .error .nonZeroRsv ∧
  decodeCmd 0b0011000000000001 = .error .nonZeroOperand ∧
  decodeCmd 0b0110000000100000 = .error .nonZeroHighOpd

/-- The model's `withFetchWord` (log 1): the very next step runs the command of the table's word, and nothing else. -/
def Obligations.TableWordIsTheNextCommand : Prop :=
  ∀ nbits w i s, decodeTableWord nbits w = some i → step (s.withFetchWord nbits w) = exec i s

/-! ### One statement per command -/

/-- 43_control.md R140: NOP has no effect in any mode, and a word of opcode 0 with further bits set is illegal. -/
def Obligations.NopHasNoEffect : Prop :=
  (∀ s, exec .nop s = .next s) ∧
  encodeCmd .nop = 0x0000#16 ∧
  ∀ (w : Word) s, w.toNat < 0x1000 → w ≠ 0x0000 →
    step (s.given w) = .next (if s.mode = .error then s else s.inError .illegalCommand w)

/-- 43_control.md R141: CLR writes six elements their reset values in every mode and leaves `out`; a word of opcode 1 with
further bits set is illegal, and ignored in ERROR mode. -/
def Obligations.ClrClearsAllButOut : Prop :=
  (∀ s, exec .clr s = .next { s with
    mode := .idle, acc := 0, cnt := 0, ecode := .noError, ecmd := 0x0000, result := 0x00 }) ∧
  encodeCmd .clr = 0x1000#16 ∧
  ∀ (w : Word) s, 0x1000 < w.toNat → w.toNat < 0x2000 →
    step (s.given w) = .next (if s.mode = .error then s else s.inError .illegalCommand w)

/-- 40_alphabet_lut.md R85: LUT_SYM in every mode, with the symbol in the closed form of R80, and its illegal words. -/
def Obligations.LutSymWritesTheSymbol : Prop :=
  (∀ v s, exec (.lutSym v) s = .next (match s.mode with
    | .idle => { s with result := BitVec.ofNat 8 (if v.toNat ≤ 25 then 0x61 + v.toNat else 0x18 + v.toNat) }
    | .enc | .dec => s.inError .sequenceError (BitVec.ofNat 16 (0x6000 + v.toNat))
    | .error => s)) ∧
  ∀ (w : Word) s, 0x6020 ≤ w.toNat → w.toNat < 0x7000 →
    step (s.given w) = .next (if s.mode = .error then s else s.inError .illegalCommand w)

/-- 40_alphabet_lut.md R86: LUT_IDX in every mode and for every code unit, with the index in the closed form of R83, and
its illegal words. -/
def Obligations.LutIdxWritesTheIndex : Prop :=
  (∀ c s, exec (.lutIdx c) s = .next (match s.mode with
    | .idle =>
      if 0x61 ≤ c.toNat ∧ c.toNat ≤ 0x7A then { s with result := BitVec.ofNat 8 (c.toNat - 0x61) }
      else if 0x32 ≤ c.toNat ∧ c.toNat ≤ 0x37 then { s with result := BitVec.ofNat 8 (c.toNat - 0x32 + 26) }
      else s.inError .invalidSymbol (BitVec.ofNat 16 (0x7000 + c.toNat))
    | .enc | .dec => s.inError .sequenceError (BitVec.ofNat 16 (0x7000 + c.toNat))
    | .error => s)) ∧
  ∀ (w : Word) s, 0x7100 ≤ w.toNat → w.toNat < 0x8000 →
    step (s.given w) = .next (if s.mode = .error then s else s.inError .illegalCommand w)

/-- 41_encoder.md R103: ENC_BYTE in every mode, in exact arithmetic. With the residual bits `ACC` and the byte read as one
number `x` of `n = CNT + 8` bits, it emits the symbols of the first one or two groups of five, keeps the last `n mod 5`
bits and opens or continues an encode session. Its illegal words are those with a non-zero RSV. -/
def Obligations.EncByteEmitsTheCompleteGroups : Prop :=
  (∀ d s, BlockInv s → exec (.encByte d) s = .next (
    let x := s.acc.toNat * 256 + d.toNat
    let n := s.cnt.toNat + 8
    match s.mode with
    | .idle | .enc => { s with
        mode := .enc
        acc := BitVec.ofNat 12 (x % 2 ^ (n % 5))
        cnt := BitVec.ofNat 4 (n % 5)
        out := s.out ++
          if n < 10 then [lut (BitVec.ofNat 5 (x / 2 ^ (n - 5)))]
          else [lut (BitVec.ofNat 5 (x / 2 ^ (n - 5))), lut (BitVec.ofNat 5 (x / 2 ^ (n - 10) % 2 ^ 5))] }
    | .dec => s.inError .sequenceError (BitVec.ofNat 16 (0x2000 + d.toNat))
    | .error => s)) ∧
  ∀ (w : Word) s, 0x2100 ≤ w.toNat → w.toNat < 0x3000 →
    step (s.given w) = .next (if s.mode = .error then s else s.inError .illegalCommand w)

/-- 41_encoder.md R104: ENC_END in every mode. In ENC with residual bits it emits one symbol, the bits padded on the right
with `5 - CNT` zeros, and closes the session; with none it only closes; in IDLE it has no effect. -/
def Obligations.EncEndPadsAndCloses : Prop :=
  (∀ s, BlockInv s → exec .encEnd s = .next (match s.mode with
    | .idle => s
    | .enc => { s with
        mode := .idle
        acc := 0
        cnt := 0
        out := s.out ++
          if s.cnt.toNat = 0 then [] else [lut (BitVec.ofNat 5 (s.acc.toNat * 2 ^ (5 - s.cnt.toNat)))] }
    | .dec => s.inError .sequenceError 0x3000
    | .error => s)) ∧
  ∀ (w : Word) s, 0x3000 < w.toNat → w.toNat < 0x4000 →
    step (s.given w) = .next (if s.mode = .error then s else s.inError .illegalCommand w)

/-- 42_decoder.md R122: DEC_SYM in every mode and for every code unit, in exact arithmetic. With the residual bits `ACC`
and the index `v` read as one number `x` of `n = CNT + 5` bits, it emits the first eight bits as a byte if there are
eight, and keeps the last `n mod 8`. A code unit that is no symbol raises INVALID_SYMBOL and nothing enters ACC. -/
def Obligations.DecSymEmitsTheCompleteByte : Prop :=
  (∀ c s, BlockInv s → exec (.decSym c) s = .next (match s.mode with
    | .idle | .dec =>
      match idx c with
      | none => s.inError .invalidSymbol (BitVec.ofNat 16 (0x4000 + c.toNat))
      | some v =>
        let x := s.acc.toNat * 32 + v.toNat
        let n := s.cnt.toNat + 5
        { s with
          mode := .dec
          acc := BitVec.ofNat 12 (x % 2 ^ (n % 8))
          cnt := BitVec.ofNat 4 (n % 8)
          out := s.out ++ if n < 8 then [] else [BitVec.ofNat 8 (x / 2 ^ (n - 8))] }
    | .enc => s.inError .sequenceError (BitVec.ofNat 16 (0x4000 + c.toNat))
    | .error => s)) ∧
  ∀ (w : Word) s, 0x4100 ≤ w.toNat → w.toNat < 0x5000 →
    step (s.given w) = .next (if s.mode = .error then s else s.inError .illegalCommand w)

/-- 42_decoder.md R123: DEC_END in every mode: the residual bits are discarded whatever they are, nothing is emitted, and
the session ends; in IDLE nothing changes. -/
def Obligations.DecEndDiscardsAndCloses : Prop :=
  (∀ s, exec .decEnd s = .next (match s.mode with
    | .idle | .dec => { s with mode := .idle, acc := 0, cnt := 0 }
    | .enc => s.inError .sequenceError 0x5000
    | .error => s)) ∧
  (∀ s, BlockInv s → s.mode = .idle → exec .decEnd s = .next s) ∧
  ∀ (w : Word) s, 0x5000 < w.toNat → w.toNat < 0x6000 →
    step (s.given w) = .next (if s.mode = .error then s else s.inError .illegalCommand w)

/-- 41_encoder.md R110: how many items ENC_BYTE and ENC_END emit and the CNT they leave, by CNT before; the symbol
ENC_END emits, padded on the right with `5 - CNT` zero bits; and the sequence of CNT over successive bytes. -/
def Obligations.EncEmissionTable : Prop :=
  (∀ r ∈ [(0, 1, 3), (1, 1, 4), (2, 2, 0), (3, 2, 1), (4, 2, 2)], ∀ d s,
    BlockInv s → s.mode = .idle ∨ s.mode = .enc → s.cnt.toNat = r.1 →
    ∃ t, exec (.encByte d) s = .next t ∧ t.mode = .enc ∧ t.out.length = s.out.length + r.2.1 ∧ t.cnt.toNat = r.2.2) ∧
  (∀ s, BlockInv s → s.mode = .idle ∨ s.mode = .enc →
    ∃ t, exec .encEnd s = .next t ∧ t.mode = .idle ∧ t.cnt.toNat = 0 ∧
      t.out = s.out ++ if s.cnt.toNat = 0 then [] else [lut (BitVec.ofNat 5 (s.acc.toNat * 2 ^ (5 - s.cnt.toNat)))]) ∧
  (∀ b s, BlockInv s → s.mode = .idle → ∃ t, run (issue (encBytes b)) s = .next t ∧
    [0, 3, 1, 4, 2][b.length % 5]? = some t.cnt.toNat)

/-! ### The step, errors and their priority -/

/-- 60_exceptions.md R154, 20_memory.md R51 (with the model's queue of interactions, logs 1 and 2): a step performs the
oldest waiting interaction. A word that decodes is run by `exec`, one that does not is an illegal command, and with
nothing waiting the state is held. -/
def Obligations.StepRunsTheDecodedCommand : Prop :=
  (∀ s w i rest, s.pending = .command w :: rest → decodeCmd w = .ok i → step s = exec i { s with pending := rest }) ∧
  (∀ s w e rest, s.pending = .command w :: rest → decodeCmd w = .error e →
    step s = .next (if s.mode = .error then { s with pending := rest }
      else { s with pending := rest, mode := .error, ecode := .illegalCommand, ecmd := w })) ∧
  (∀ s, s.pending = [] → step s = .next s)

/-- 60_exceptions.md R160: no interaction in any state makes the machine stop. -/
def Obligations.StepNeverStops : Prop :=
  ∀ s, Completes (step s)

/-- 60_exceptions.md R155: error entry, by whatever command and cause, writes MODE, ECODE and ECMD with the cause's code and
the issued word, and changes nothing else; in ERROR mode no error is entered. -/
def Obligations.ErrorEntryIsPrecise : Prop :=
  (∀ s t, step s = .next t → s.mode ≠ .error → t.mode = .error →
    ∃ w rest e, s.pending = .command w :: rest ∧ e ≠ .noError ∧
      t = { s with pending := rest, mode := .error, ecode := e, ecmd := w }) ∧
  (∀ s t, step s = .next t → s.mode = .error → t.mode = .error → t.ecode = s.ecode ∧ t.ecmd = s.ecmd) ∧
  ErrorCode.invalidSymbol.code = 1 ∧ ErrorCode.illegalCommand.code = 2 ∧ ErrorCode.sequenceError.code = 3

/-- 60_exceptions.md R151: DEC_SYM and LUT_IDX with a code unit outside the alphabet, in a mode that allows them, raise
INVALID_SYMBOL with their own word, whose low byte is the code unit, in ECMD, and nothing else raises it. -/
def Obligations.OnlyInvalidSymbolsRaiseInvalidSymbol : Prop :=
  (∀ c s, s.mode = .idle ∨ s.mode = .dec → (∀ v, lut v ≠ c) →
    exec (.decSym c) s = .next (s.inError .invalidSymbol (BitVec.ofNat 16 (0x4000 + c.toNat)))) ∧
  (∀ c s, s.mode = .idle → (∀ v, lut v ≠ c) →
    exec (.lutIdx c) s = .next (s.inError .invalidSymbol (BitVec.ofNat 16 (0x7000 + c.toNat)))) ∧
  (∀ s t, step s = .next t → s.ecode ≠ .invalidSymbol → t.ecode = .invalidSymbol →
    ∃ w rest c, s.pending = .command w :: rest ∧ (∀ v, lut v ≠ c) ∧
      (decodeCmd w = .ok (.decSym c) ∨ decodeCmd w = .ok (.lutIdx c)))

/-- 60_exceptions.md R152: every illegal word raises ILLEGAL_COMMAND when MODE is not ERROR, and no legal word does. -/
def Obligations.ExactlyIllegalWordsRaiseIllegalCommand : Prop :=
  (∀ (s : State) w, legal w = false → s.mode ≠ .error → step (s.given w) = .next (s.inError .illegalCommand w)) ∧
  (∀ (s t : State) w, legal w = true → s.ecode ≠ .illegalCommand → step (s.given w) = .next t → t.ecode ≠ .illegalCommand)

/-- 60_exceptions.md R153: outside ERROR mode a legal command raises SEQUENCE_ERROR exactly where the table of R153 says
"no": decode and LUT commands in ENC, encode and LUT commands in DEC. -/
def Obligations.SequenceErrorTable : Prop :=
  ∀ i s, s.mode ≠ .error →
    (exec i s = .next (s.inError .sequenceError (encodeCmd i)) ↔
      match i with
      | .nop | .clr => False
      | .encByte _ | .encEnd => s.mode = .dec
      | .decSym _ | .decEnd => s.mode = .enc
      | .lutSym _ | .lutIdx _ => s.mode = .enc ∨ s.mode = .dec)

/-- 60_exceptions.md R159: of several errors that apply the command reports the first of ILLEGAL_COMMAND, SEQUENCE_ERROR,
INVALID_SYMBOL, and in ERROR mode none; with the three examples of the rule. -/
def Obligations.ErrorPriority : Prop :=
  (∀ (s : State) w, s.mode = .error → ∃ t, step (s.given w) = .next t ∧ (t.ecode = s.ecode ∨ t.ecode = .noError)) ∧
  (∀ (s : State) w, s.mode ≠ .error → legal w = false → step (s.given w) = .next (s.inError .illegalCommand w)) ∧
  (∀ (s : State) w i, s.mode ≠ .error → decodeCmd w = .ok i → allowed i s.mode = false →
    step (s.given w) = .next (s.inError .sequenceError w)) ∧
  (∀ (s : State) w i, s.mode ≠ .error → decodeCmd w = .ok i → allowed i s.mode = true →
    ∃ t, step (s.given w) = .next t ∧ (t.mode = .error → t = s.inError .invalidSymbol w)) ∧
  (∀ s : State, s.mode = .enc → step (s.given 0x4041) = .next (s.inError .sequenceError 0x4041)) ∧
  (∀ s : State, s.mode = .dec → step (s.given 0x6020) = .next (s.inError .illegalCommand 0x6020))

/-- 60_exceptions.md R156: in ERROR mode a command word other than 0x1000 has no effect at all. -/
def Obligations.ErrorModeIgnoresAllButClr : Prop :=
  ∀ (s : State) w, s.mode = .error → w ≠ 0x1000 → step (s.given w) = .next s

/-- 60_exceptions.md R157: the two exits of ERROR mode, and only these, with the state they leave. -/
def Obligations.OnlyClrAndResetLeaveError : Prop :=
  (∀ s : State, s.mode = .error → step (s.given 0x1000) = .next { s with
    mode := .idle, acc := 0, cnt := 0, ecode := .noError, ecmd := 0x0000, result := 0x00 }) ∧
  (∀ s rest, s.mode = .error → s.pending = .assertReset :: rest → ∃ t, step s = .next t ∧
    t.mode = .idle ∧ t.acc = 0 ∧ t.cnt = 0 ∧ t.ecode = .noError ∧ t.ecmd = 0x0000 ∧ t.result = 0x00) ∧
  (∀ s t, s.mode = .error → step s = .next t → t.mode ≠ .error →
    ∃ rest, s.pending = .command 0x1000 :: rest ∨ s.pending = .assertReset :: rest)

/-- 60_exceptions.md R156, 10_state.md R27: through any run without a legal CLR and without reset, a recorded error and all
else the block holds stay as they are. -/
def Obligations.FirstErrorIsKept : Prop :=
  ∀ xs s, s.mode = .error → (∀ x ∈ xs, x ≠ .command 0x1000 ∧ x ≠ .assertReset) →
    ∃ t, run xs s = .next t ∧ t.mode = .error ∧ t.ecode = s.ecode ∧ t.ecmd = s.ecmd ∧
      t.acc = s.acc ∧ t.cnt = s.cnt ∧ t.result = s.result ∧ t.out = s.out

/-! ### Invariants and whole-machine rules -/

/-- 10_state.md R25, R26: reset establishes the invariant. -/
def Obligations.ResetMeetsInvariant : Prop :=
  BlockInv State.reset

/-- 10_state.md R25, R26: every step, whatever the host does, keeps INV_ACC and INV_MODE (and the model's own bound on the
items taken, log 4). -/
def Obligations.StepKeepsInvariant : Prop :=
  ∀ s t, BlockInv s → step s = .next t → BlockInv t

/-- 10_state.md R24, R25, R27 and 60_exceptions.md R155: along every run from reset CNT stays at most 7, ACC has no bit at
or above CNT, and the block is in ERROR mode exactly when an error code is recorded. -/
def Obligations.EveryRunFromResetIsConsistent : Prop :=
  ∀ xs, ∃ t, run xs State.reset = .next t ∧ t.cnt.toNat ≤ 7 ∧ t.acc.toNat < 2 ^ t.cnt.toNat ∧
    (t.mode = .error ↔ t.ecode ≠ .noError)

/-- 70_reset_and_hazards.md R182: a legal CLR gives a state that meets the invariant whatever the block's state was. -/
def Obligations.ClrEstablishesInvariant : Prop :=
  ∀ s, InvTaken s → ∃ t, exec .clr s = .next t ∧ BlockInv t

/-- 10_state.md R20, column "written by", and R30: which commands can change which element. -/
def Obligations.ElementsChangeOnlyUnderTheirWriters : Prop :=
  ∀ i s, ∃ t, exec i s = .next t ∧
    (t.result ≠ s.result → i = .clr ∨ (∃ v, i = .lutSym v) ∨ ∃ c, i = .lutIdx c) ∧
    (t.acc ≠ s.acc ∨ t.cnt ≠ s.cnt →
      i = .clr ∨ i = .encEnd ∨ i = .decEnd ∨ (∃ d, i = .encByte d) ∨ ∃ c, i = .decSym c) ∧
    (t.ecode ≠ s.ecode ∨ t.ecmd ≠ s.ecmd → i = .clr ∨ (s.mode ≠ .error ∧ t.mode = .error)) ∧
    (t.out ≠ s.out → i = .encEnd ∨ (∃ d, i = .encByte d) ∨ ∃ c, i = .decSym c) ∧
    (t.mode ≠ s.mode → t.mode ≠ .error → i ≠ .nop ∧ (∀ v, i ≠ .lutSym v) ∧ ∀ c, i ≠ .lutIdx c) ∧
    t.taken = s.taken ∧ t.pending = s.pending ∧ t.responses = s.responses

/-- 10_state.md R29, 70_reset_and_hazards.md R183: a step appends at most two items to `out`, unless it is reset, which
empties it. -/
def Obligations.OutOnlyGrowsUntilReset : Prop :=
  ∀ s t, BlockInv s → step s = .next t →
    (∃ items, t.out = s.out ++ items ∧ items.length ≤ 2) ∨ ((∃ rest, s.pending = .assertReset :: rest) ∧ t.out = [])

/-- 41_encoder.md R107: every item an ENC_BYTE or ENC_END command appends, in any state, is one of the 32 code units of
the alphabet, "a" to "z" and "2" to "7". -/
def Obligations.EncoderEmitsOnlyAlphabet : Prop :=
  ∀ i s, i = .encEnd ∨ (∃ d, i = .encByte d) → ∃ t items, exec i s = .next t ∧ t.out = s.out ++ items ∧
    ∀ b ∈ items, (0x61 ≤ b.toNat ∧ b.toNat ≤ 0x7A) ∨ (0x32 ≤ b.toNat ∧ b.toNat ≤ 0x37)

/-- 20_memory.md R51, 70_reset_and_hazards.md R191: the run of two lists one after the other is the run of the first and
then, from where it ended, the run of the second. -/
def Obligations.RunsAreSequential : Prop :=
  ∀ xs ys s, ∃ t u, run xs s = .next t ∧ run ys t = .next u ∧ run (xs ++ ys) s = .next u

/-! ### Reset and the host's other interactions -/

/-- 10_state.md R33, 70_reset_and_hazards.md R180: reset sets every element of the block, from any state. -/
def Obligations.ResetSetsEveryElement : Prop :=
  (∀ s rest, s.pending = .assertReset :: rest → ∃ t, step s = .next t ∧
    t.mode = .idle ∧ t.acc = 0x000 ∧ t.cnt = 0 ∧ t.ecode = .noError ∧ t.ecmd = 0x0000 ∧ t.result = 0x00 ∧ t.out = []) ∧
  State.reset.mode = .idle ∧ State.reset.acc = 0x000 ∧ State.reset.cnt = 0 ∧ State.reset.ecode = .noError ∧
  State.reset.ecmd = 0x0000 ∧ State.reset.result = 0x00 ∧ State.reset.out = []

/-- 60_exceptions.md R167, 20_memory.md R41: a step that changes any element of the block performs a command or reset. -/
def Obligations.OnlyCommandsAndResetChangeTheBlock : Prop :=
  ∀ s t, step s = .next t →
    t.mode ≠ s.mode ∨ t.acc ≠ s.acc ∨ t.cnt ≠ s.cnt ∨ t.ecode ≠ s.ecode ∨ t.ecmd ≠ s.ecmd ∨ t.result ≠ s.result ∨
      t.out ≠ s.out →
    ∃ rest, (∃ w, s.pending = .command w :: rest) ∨ s.pending = .assertReset :: rest

/-- The MODEL's own fields (logs 1, 3, 4, 9), which hold the host's side of 70_reset_and_hazards.md R190: a step takes the
oldest interaction off the queue; commands and reset give the host nothing back; only a taken item or reset moves the
count of taken items; and where no item is left to take, the host gets none. -/
def Obligations.HostSideOfAStep : Prop :=
  (∀ s t, step s = .next t → t.pending = s.pending.tail) ∧
  (∀ s t w rest, s.pending = .command w :: rest → step s = .next t →
    t.taken = s.taken ∧ t.responses = s.responses) ∧
  (∀ s t rest, s.pending = .assertReset :: rest → step s = .next t → t.taken = 0 ∧ t.responses = s.responses) ∧
  (∀ s rest, s.pending = .takeItem :: rest → s.out.length ≤ s.taken →
    step s = .next { s with pending := rest, responses := s.responses ++ [.item none] })

/-- 20_memory.md R42: the fields of STATUS, read from the 16-bit value, its value after reset and in ERROR mode. -/
def Obligations.StatusPacksItsFields : Prop :=
  (∀ s : State,
    (s.readRegister 0).toNat / 2 ^ 11 = 0 ∧
    (s.readRegister 0).toNat / 2 ^ 8 % 8 =
      (match s.ecode with | .noError => 0 | .invalidSymbol => 1 | .illegalCommand => 2 | .sequenceError => 3) ∧
    (s.readRegister 0).toNat / 2 ^ 4 % 16 = s.cnt.toNat ∧
    (s.readRegister 0).toNat / 2 ^ 2 % 4 = 0 ∧
    (s.readRegister 0).toNat % 4 = (match s.mode with | .idle => 0 | .enc => 1 | .dec => 2 | .error => 3)) ∧
  State.reset.readRegister 0 = 0x0000 ∧
  (∀ s : State, BlockInv s → s.mode = .error →
    (s.readRegister 0).toNat % 4 = 0b11 ∧ (s.readRegister 0).toNat / 2 ^ 8 % 8 ≠ 0)

/-- 20_memory.md R43: ACCR and RESULTR are zero-extended, ECMDR is ECMD. -/
def Obligations.OtherRegistersZeroExtend : Prop :=
  ∀ s : State, (s.readRegister 1).toNat = s.acc.toNat ∧ (s.readRegister 2).toNat = s.result.toNat ∧
    s.readRegister 3 = s.ecmd

/-- 20_memory.md R44: a register read returns the current value in every mode and changes nothing of the block. The value
is recorded among what the host got back (log 3). -/
def Obligations.RegisterReadHasNoSideEffect : Prop :=
  ∀ s i rest, s.pending = .readRegister i :: rest →
    step s = .next { s with pending := rest, responses := s.responses ++ [.register i (s.readRegister i)] }

/-- 70_reset_and_hazards.md R190: taking `n` items, where so many are left, hands the host the next `n` items of `out`, in
order, and changes nothing of the block. -/
def Obligations.ItemsAreTakenInOrder : Prop :=
  ∀ n s, s.taken + n ≤ s.out.length →
    run (List.replicate n .takeItem) s = .next { s with
      pending := []
      taken := s.taken + n
      responses := s.responses ++ ((s.out.drop s.taken).take n).map fun b => .item (some b) }

/-- 60_exceptions.md R161: ERR is the level MODE == ERROR; it rises at error entry and falls only at CLR or reset. -/
def Obligations.ErrOutputFollowsMode : Prop :=
  (∀ s : State, s.err = true ↔ s.mode = .error) ∧
  (∀ s t, step s = .next t → s.err = false → t.err = true →
    ∃ w rest e, s.pending = .command w :: rest ∧ t = ({ s with pending := rest } : State).inError e w) ∧
  (∀ s t, step s = .next t → s.err = true → t.err = false →
    ∃ rest, s.pending = .command 0x1000 :: rest ∨ s.pending = .assertReset :: rest)

/-! ### The alphabet -/

/-- 40_alphabet_lut.md R80, R82: the table in closed form, and its symbols are distinct. -/
def Obligations.AlphabetIsLettersThenDigits : Prop :=
  (∀ v : Group, v.toNat ≤ 25 → (lut v).toNat = 0x61 + v.toNat) ∧
  (∀ v : Group, 26 ≤ v.toNat → (lut v).toNat = 0x32 + (v.toNat - 26)) ∧
  (∀ v v' : Group, lut v = lut v' → v = v')

/-- 40_alphabet_lut.md R83: IDX is the exact inverse of the table, and has no value on the other code units, the invalid
examples of the rule among them. -/
def Obligations.IdxInvertsTheTable : Prop :=
  (∀ c v, idx c = some v ↔ lut v = c) ∧
  (∀ c : Byte, idx c = none ↔ ¬((0x61 ≤ c.toNat ∧ c.toNat ≤ 0x7A) ∨ (0x32 ≤ c.toNat ∧ c.toNat ≤ 0x37))) ∧
  (∃ cs : List Byte, cs.Nodup ∧ cs.length = 224 ∧ ∀ c, c ∈ cs ↔ idx c = none)

/-- 40_alphabet_lut.md R87: LUT_SYM and LUT_IDX undo each other through RESULT. -/
def Obligations.LutCommandsUndoEachOther : Prop :=
  (∀ v s, s.mode = .idle → ∃ t u, exec (.lutSym v) s = .next t ∧ exec (.lutIdx t.result) t = .next u ∧
    u.mode = .idle ∧ u.result.toNat = v.toNat) ∧
  (∀ c v s, s.mode = .idle → lut v = c → ∃ t u, exec (.lutIdx c) s = .next t ∧
    exec (.lutSym (t.result.setWidth 5)) t = .next u ∧ t.result.toNat < 32 ∧ u.mode = .idle ∧ u.result = c)

/-! ### Sessions against the reference functions -/

/-- 41_encoder.md R105: a whole encode session from IDLE appends exactly `enc(b)` and changes nothing else; it ends in IDLE
with ACC and CNT zero. -/
def Obligations.EncodeSessionComputesEnc : Prop :=
  ∀ b s, BlockInv s → s.mode = .idle →
    run (issue (encSession b)) s = .next { s with pending := [], acc := 0, cnt := 0, out := s.out ++ encRef b }

/-- 41_encoder.md R106: after `k ≥ 1` ENC_BYTE commands, CNT is 8k mod 5, ACC holds the last CNT bits of the bitstream, and
floor(8k/5) symbols are out. -/
def Obligations.EncodeResidualLaw : Prop :=
  ∀ b s, BlockInv s → s.mode = .idle → b ≠ [] → ∃ t, run (issue (encBytes b)) s = .next t ∧
    t.mode = .enc ∧
    t.cnt.toNat = 8 * b.length % 5 ∧
    t.acc.toNat = value ((bits b).drop (8 * b.length - 8 * b.length % 5)) ∧
    t.out.length = s.out.length + 8 * b.length / 5

/-- 42_decoder.md R124: a decode session from IDLE on valid symbols appends exactly `dec(t)` and ends in IDLE; with a first
invalid symbol after `pre` it has appended `dec(pre)`, floor(5j/8) bytes, appends nothing more whatever follows, and ends
in ERROR with that DEC_SYM word in ECMD. -/
def Obligations.DecodeSessionComputesDec : Prop :=
  (∀ t s, BlockInv s → s.mode = .idle → (∀ c ∈ t, ∃ v, idx c = some v) → ∃ bytes, decRef t = some bytes ∧
    run (issue (decSession t)) s = .next { s with pending := [], acc := 0, cnt := 0, out := s.out ++ bytes }) ∧
  (∀ pre c post s, BlockInv s → s.mode = .idle → (∀ c' ∈ pre, ∃ v, idx c' = some v) → idx c = none →
    ∃ bytes u, decRef pre = some bytes ∧ bytes.length = 5 * pre.length / 8 ∧
      run (issue (decSession (pre ++ c :: post))) s = .next u ∧
      u.out = s.out ++ bytes ∧ u.mode = .error ∧ u.ecode = .invalidSymbol ∧
      u.ecmd = BitVec.ofNat 16 (0x4000 + c.toNat))

/-- 42_decoder.md R125: after `k ≥ 1` valid DEC_SYM commands, CNT is 5k mod 8, ACC holds the last CNT bits of the
reconstructed bitstream, and floor(5k/8) bytes are out; and the per-command table. -/
def Obligations.DecodeResidualLaw : Prop :=
  (∀ t vs s, BlockInv s → s.mode = .idle → t ≠ [] → indices t = some vs → ∃ u, run (issue (decSyms t)) s = .next u ∧
    u.mode = .dec ∧
    u.cnt.toNat = 5 * t.length % 8 ∧
    u.acc.toNat = value ((vs.flatMap bitsOf).drop (5 * t.length - 5 * t.length % 8)) ∧
    u.out.length = s.out.length + 5 * t.length / 8) ∧
  (∀ r ∈ [(0, 0, 5), (1, 0, 6), (2, 0, 7), (3, 1, 0), (4, 1, 1), (5, 1, 2), (6, 1, 3), (7, 1, 4)], ∀ c v s,
    BlockInv s → s.mode = .idle ∨ s.mode = .dec → idx c = some v → s.cnt.toNat = r.1 →
    ∃ u, exec (.decSym c) s = .next u ∧ u.mode = .dec ∧ u.out.length = s.out.length + r.2.1 ∧ u.cnt.toNat = r.2.2)

/-- 42_decoder.md R126: `dec(enc(b)) = b` for every byte sequence, and the block does the same: an encode session followed
by a decode session on its output appends exactly `b`. -/
def Obligations.RoundTrip : Prop :=
  (∀ b, decRef (encRef b) = some b) ∧
  (∀ b s, BlockInv s → s.mode = .idle →
    run (issue (encSession b) ++ issue (decSession (encRef b))) s =
      .next { s with pending := [], acc := 0, cnt := 0, out := s.out ++ encRef b ++ b })

/-- 41_encoder.md R109, R102: the output of `n` bytes has ceil(8n/5) symbols, from the reference and from the block. -/
def Obligations.EncodeLengthLaw : Prop :=
  (∀ b, ((encRef b).length : ℤ) = ⌈(b.length * 8 / 5 : ℚ)⌉) ∧
  (∀ b s, BlockInv s → s.mode = .idle → ∃ t, run (issue (encSession b)) s = .next t ∧
    ((t.out.length - s.out.length : ℕ) : ℤ) = ⌈(b.length * 8 / 5 : ℚ)⌉)

/-- 41_encoder.md R108: an encode session appends the same symbols from any two IDLE states, whatever RESULT, the earlier
output and the register reads between its commands. -/
def Obligations.EncodeOutputDependsOnItsBytesOnly : Prop :=
  ∀ b xs ys s s', BlockInv s → BlockInv s' → s.mode = .idle → s'.mode = .idle →
    (∀ zs ∈ [xs, ys], (∀ x ∈ zs, (∃ w, x = .command w) ∨ ∃ i, x = .readRegister i) ∧
      zs.filter (fun x => !(x matches .readRegister _)) = issue (encSession b)) →
    ∃ t t' items, run xs s = .next t ∧ run ys s' = .next t' ∧ t.out = s.out ++ items ∧ t'.out = s'.out ++ items

/-- 42_decoder.md R127: encoding does not undo decoding ("af"), and a text whose length is 1, 3 or 6 modulo 8 is never an
output of `enc`; the block still decodes it without error. -/
def Obligations.DecodingIsLossy : Prop :=
  decRef [0x61, 0x66] = some [0x01] ∧ encRef [0x01] = [0x61, 0x65] ∧
  (∀ t : List Byte, t.length % 8 = 1 ∨ t.length % 8 = 3 ∨ t.length % 8 = 6 → ∀ b, encRef b ≠ t) ∧
  (∀ t s, BlockInv s → s.mode = .idle → t.length % 8 = 1 ∨ t.length % 8 = 3 ∨ t.length % 8 = 6 →
    (∀ c ∈ t, ∃ v, idx c = some v) →
    ∃ u, run (issue (decSession t)) s = .next u ∧ u.mode = .idle ∧ u.ecode = .noError)

/-- 60_exceptions.md R158, 70_reset_and_hazards.md R186: the items a host must discard after a decode session that an
invalid symbol aborted are the floor(5j/8) bytes that session emitted, and none of the items before it; after an encode
session that a word aborted, illegal or forbidden in ENC, they are the floor(8n/5) symbols it emitted. -/
def Obligations.AbortedSessionItemsAreVoid : Prop :=
  (∀ pre c post s, BlockInv s → s.mode = .idle → (∀ c' ∈ pre, ∃ v, idx c' = some v) → idx c = none →
    ∃ bytes, decRef pre = some bytes ∧ bytes.length = 5 * pre.length / 8 ∧
      voidItems (issue (decSession (pre ++ c :: post))) s = bytes) ∧
  (∀ b w s, BlockInv s → s.mode = .idle → b ≠ [] →
    legal w = false ∨ (∃ i, decodeCmd w = .ok i ∧ allowed i .enc = false) →
    voidItems (issue (encBytes b) ++ [.command w]) s = (encRef b).take (8 * b.length / 5))

/-- 70_reset_and_hazards.md R186, 00_scope.md R13, and log 16: in a session from IDLE, that is while MODE stays ENC or DEC
after each interaction but the last, an entry into ERROR makes every item emitted since IDLE one the host must discard
(R186). The other ends make none: after ENC_END or DEC_END by R186, and, by the model's own reading (DEDUCED, log 16),
after CLR or reset abandons the session or where the run ends with the session open. What a run up to IDLE or ERROR marks
and what the rest of the run marks are independent: a completed session stays valid, an aborted one stays aborted.
Without reset every item of the run is accounted for. -/
def Obligations.HostDiscardsAbortedSessions : Prop :=
  (∀ xs x s u, s.mode = .idle →
    (∀ ys, ys <+: xs → ys ≠ [] → ∃ t, run ys s = .next t ∧ (t.mode = .enc ∨ t.mode = .dec)) →
    run (xs ++ [x]) s = .next u →
    (u.mode = .error → u.out = s.out ++ voidItems (xs ++ [x]) s) ∧ (u.mode ≠ .error → voidItems (xs ++ [x]) s = [])) ∧
  (∀ xs ys s t, run xs s = .next t → t.mode = .idle ∨ t.mode = .error →
    voidItems (xs ++ ys) s = voidItems xs s ++ voidItems ys t) ∧
  (∀ xs s, (∀ x ∈ xs, x ≠ .assertReset) → ∃ t, run xs s = .next t ∧ t.out = s.out ++ (emittedItems xs s).map (·.1))

/-! ### The assembler -/

/-- 30_encoding.md R68: the pseudo-instructions expand to whole sessions, and RESET_SESSION to CLR. -/
def Obligations.PseudoInstructionsExpand : Prop :=
  (∀ b : List Byte, Asm.expand (.encodeBytes (b.map BitVec.toNat)) = some (encSession b)) ∧
  (∀ cs : List Char, (∀ c ∈ cs, c.toNat < 128) →
    Asm.expand (.encodeText cs) = some (encSession (cs.map fun c => BitVec.ofNat 8 c.toNat))) ∧
  (∀ vs : List Group, Asm.expand (.decodeText (vs.map fun v => Char.ofNat (lut v).toNat)) =
    some (decSession (vs.map lut))) ∧
  Asm.expand (.encodeBytes []) = some [.encEnd] ∧
  Asm.expand .resetSession = some [.clr]

/-- 30_encoding.md R67: operands in range are taken, operands out of range are refused: 0..255 for a byte or a code unit,
0..31 for LUT_SYM, and only the 32 alphabet characters as a literal. -/
def Obligations.AssemblerChecksOperandRanges : Prop :=
  (∀ n, Asm.expand (.encByte n) = if n ≤ 255 then some [.encByte (BitVec.ofNat 8 n)] else none) ∧
  (∀ n, Asm.expand (.decSym (.num n)) = if n ≤ 255 then some [.decSym (BitVec.ofNat 8 n)] else none) ∧
  (∀ n, Asm.expand (.lutIdx (.num n)) = if n ≤ 255 then some [.lutIdx (BitVec.ofNat 8 n)] else none) ∧
  (∀ n, Asm.expand (.lutSym n) = if n ≤ 31 then some [.lutSym (BitVec.ofNat 5 n)] else none) ∧
  (∀ v, Asm.expand (.decSym (.chr (Char.ofNat (lut v).toNat))) = some [.decSym (lut v)]) ∧
  (∀ v, Asm.expand (.lutIdx (.chr (Char.ofNat (lut v).toNat))) = some [.lutIdx (lut v)]) ∧
  (∀ c : Char, (∀ v, c.toNat ≠ (lut v).toNat) →
    Asm.expand (.decSym (.chr c)) = none ∧ Asm.expand (.lutIdx (.chr c)) = none)
end

