-- ==== Sys2Proof/Config.lean ====
section
/-! DEFINITION. The implementation parameters of 00_scope.md R7. B32C is one fixed design with no options (R1), and the
spec leaves no value open that a rule reads (93_implementation_defined.md): there is no free value here. -/

namespace Sys2Proof

/-- LUT_N, the alphabet's size (R7). -/
def Config.lutN : Nat := 32

/-- GROUP_W, bits per symbol (R7). -/
def Config.groupW : Nat := 5

/-- BYTE_W, bits per byte, and SYM_W, bits per code unit (R7). -/
def Config.byteW : Nat := 8

/-- ACC_W, the accumulator's width (R7, R23). -/
def Config.accW : Nat := 12

/-- CNT_W, the count's width (R7, R24). -/
def Config.cntW : Nat := 4

/-- CMD_W, the command word's width (R7). -/
def Config.cmdW : Nat := 16

/-- REG_IDX_W, the register index's width (R7). -/
def Config.regIndexW : Nat := 2

/-- ECODE_W, the error code's width (R7). -/
def Config.ecodeW : Nat := 3

end Sys2Proof
end

