-- ==== Sys2Proof/Laws/Decode.lean ====
section
/-! SUPPORT. Command words as numbers: the fields the decoder reads and the words the encoder writes. -/

namespace Sys2Proof

theorem opField_toNat (w : Word) : (opField w).toNat = w.toNat / 0x1000 := by
  have := w.isLt
  simp only [opField, BitVec.extractLsb'_toNat, Nat.shiftRight_eq_div_pow]
  omega

theorem rsvField_toNat (w : Word) : (rsvField w).toNat = w.toNat / 0x100 % 0x10 := by
  simp only [rsvField, BitVec.extractLsb'_toNat, Nat.shiftRight_eq_div_pow]

theorem opdField_toNat (w : Word) : (opdField w).toNat = w.toNat % 0x100 := by
  simp only [opdField, BitVec.extractLsb'_toNat, Nat.shiftRight_eq_div_pow]
  norm_num

theorem highOpd_toNat (w : Word) : (highOpd w).toNat = w.toNat / 0x20 % 8 := by
  simp only [highOpd, BitVec.extractLsb'_toNat, Nat.shiftRight_eq_div_pow]

theorem groupField_toNat (w : Word) : (groupField w).toNat = w.toNat % 0x20 := by
  simp only [groupField, BitVec.extractLsb'_toNat, Nat.shiftRight_eq_div_pow]
  norm_num

/-- The opcode in the high byte, the operand in the low byte. -/
theorem append_byte_toNat (hi lo : Byte) : (hi ++ lo).toNat = hi.toNat * 0x100 + lo.toNat := by
  simp only [BitVec.toNat_append]
  rw [← Nat.shiftLeft_add_eq_or_of_lt lo.isLt, Nat.shiftLeft_eq]

end Sys2Proof
end

