-- ==== Sys2Proof/Laws/State.lean ====
section
/-! SUPPORT. Every field of the state under every named update of it. -/

namespace Sys2Proof.Machine

section

variable (s : State)

@[simp] theorem State.emit_mode (xs : List Byte) : (s.emit xs).mode = s.mode := rfl
@[simp] theorem State.emit_acc (xs : List Byte) : (s.emit xs).acc = s.acc := rfl
@[simp] theorem State.emit_cnt (xs : List Byte) : (s.emit xs).cnt = s.cnt := rfl
@[simp] theorem State.emit_ecode (xs : List Byte) : (s.emit xs).ecode = s.ecode := rfl
@[simp] theorem State.emit_ecmd (xs : List Byte) : (s.emit xs).ecmd = s.ecmd := rfl
@[simp] theorem State.emit_result (xs : List Byte) : (s.emit xs).result = s.result := rfl
@[simp] theorem State.emit_out (xs : List Byte) : (s.emit xs).out = s.out ++ xs := rfl
@[simp] theorem State.emit_taken (xs : List Byte) : (s.emit xs).taken = s.taken := rfl
@[simp] theorem State.emit_pending (xs : List Byte) : (s.emit xs).pending = s.pending := rfl
@[simp] theorem State.emit_responses (xs : List Byte) : (s.emit xs).responses = s.responses := rfl

@[simp] theorem State.setResidue_mode (t : Acc) (n : Nat) : (s.setResidue t n).mode = s.mode := rfl
@[simp] theorem State.setResidue_acc (t : Acc) (n : Nat) : (s.setResidue t n).acc = newestBits t n := rfl
@[simp] theorem State.setResidue_cnt (t : Acc) (n : Nat) : (s.setResidue t n).cnt = BitVec.ofNat 4 n := rfl
@[simp] theorem State.setResidue_ecode (t : Acc) (n : Nat) : (s.setResidue t n).ecode = s.ecode := rfl
@[simp] theorem State.setResidue_ecmd (t : Acc) (n : Nat) : (s.setResidue t n).ecmd = s.ecmd := rfl
@[simp] theorem State.setResidue_result (t : Acc) (n : Nat) : (s.setResidue t n).result = s.result := rfl
@[simp] theorem State.setResidue_out (t : Acc) (n : Nat) : (s.setResidue t n).out = s.out := rfl
@[simp] theorem State.setResidue_taken (t : Acc) (n : Nat) : (s.setResidue t n).taken = s.taken := rfl
@[simp] theorem State.setResidue_pending (t : Acc) (n : Nat) : (s.setResidue t n).pending = s.pending := rfl
@[simp] theorem State.setResidue_responses (t : Acc) (n : Nat) : (s.setResidue t n).responses = s.responses := rfl

@[simp] theorem State.setMode_mode (m : Mode) : (s.setMode m).mode = m := rfl
@[simp] theorem State.setMode_acc (m : Mode) : (s.setMode m).acc = s.acc := rfl
@[simp] theorem State.setMode_cnt (m : Mode) : (s.setMode m).cnt = s.cnt := rfl
@[simp] theorem State.setMode_ecode (m : Mode) : (s.setMode m).ecode = s.ecode := rfl
@[simp] theorem State.setMode_ecmd (m : Mode) : (s.setMode m).ecmd = s.ecmd := rfl
@[simp] theorem State.setMode_result (m : Mode) : (s.setMode m).result = s.result := rfl
@[simp] theorem State.setMode_out (m : Mode) : (s.setMode m).out = s.out := rfl
@[simp] theorem State.setMode_taken (m : Mode) : (s.setMode m).taken = s.taken := rfl
@[simp] theorem State.setMode_pending (m : Mode) : (s.setMode m).pending = s.pending := rfl
@[simp] theorem State.setMode_responses (m : Mode) : (s.setMode m).responses = s.responses := rfl

@[simp] theorem State.setResult_mode (r : Byte) : (s.setResult r).mode = s.mode := rfl
@[simp] theorem State.setResult_acc (r : Byte) : (s.setResult r).acc = s.acc := rfl
@[simp] theorem State.setResult_cnt (r : Byte) : (s.setResult r).cnt = s.cnt := rfl
@[simp] theorem State.setResult_ecode (r : Byte) : (s.setResult r).ecode = s.ecode := rfl
@[simp] theorem State.setResult_ecmd (r : Byte) : (s.setResult r).ecmd = s.ecmd := rfl
@[simp] theorem State.setResult_result (r : Byte) : (s.setResult r).result = r := rfl
@[simp] theorem State.setResult_out (r : Byte) : (s.setResult r).out = s.out := rfl
@[simp] theorem State.setResult_taken (r : Byte) : (s.setResult r).taken = s.taken := rfl
@[simp] theorem State.setResult_pending (r : Byte) : (s.setResult r).pending = s.pending := rfl
@[simp] theorem State.setResult_responses (r : Byte) : (s.setResult r).responses = s.responses := rfl

@[simp] theorem State.closeSession_mode : (s.closeSession).mode = .idle := rfl
@[simp] theorem State.closeSession_acc : (s.closeSession).acc = 0 := rfl
@[simp] theorem State.closeSession_cnt : (s.closeSession).cnt = 0 := rfl
@[simp] theorem State.closeSession_ecode : (s.closeSession).ecode = s.ecode := rfl
@[simp] theorem State.closeSession_ecmd : (s.closeSession).ecmd = s.ecmd := rfl
@[simp] theorem State.closeSession_result : (s.closeSession).result = s.result := rfl
@[simp] theorem State.closeSession_out : (s.closeSession).out = s.out := rfl
@[simp] theorem State.closeSession_taken : (s.closeSession).taken = s.taken := rfl
@[simp] theorem State.closeSession_pending : (s.closeSession).pending = s.pending := rfl
@[simp] theorem State.closeSession_responses : (s.closeSession).responses = s.responses := rfl

@[simp] theorem State.clear_mode : (s.clear).mode = .idle := rfl
@[simp] theorem State.clear_acc : (s.clear).acc = 0 := rfl
@[simp] theorem State.clear_cnt : (s.clear).cnt = 0 := rfl
@[simp] theorem State.clear_ecode : (s.clear).ecode = .noError := rfl
@[simp] theorem State.clear_ecmd : (s.clear).ecmd = 0x0000 := rfl
@[simp] theorem State.clear_result : (s.clear).result = 0x00 := rfl
@[simp] theorem State.clear_out : (s.clear).out = s.out := rfl
@[simp] theorem State.clear_taken : (s.clear).taken = s.taken := rfl
@[simp] theorem State.clear_pending : (s.clear).pending = s.pending := rfl
@[simp] theorem State.clear_responses : (s.clear).responses = s.responses := rfl

@[simp] theorem State.raise_mode (e : ErrorCode) (w : Word) : (s.raise e w).mode = .error := rfl
@[simp] theorem State.raise_acc (e : ErrorCode) (w : Word) : (s.raise e w).acc = s.acc := rfl
@[simp] theorem State.raise_cnt (e : ErrorCode) (w : Word) : (s.raise e w).cnt = s.cnt := rfl
@[simp] theorem State.raise_ecode (e : ErrorCode) (w : Word) : (s.raise e w).ecode = e := rfl
@[simp] theorem State.raise_ecmd (e : ErrorCode) (w : Word) : (s.raise e w).ecmd = w := rfl
@[simp] theorem State.raise_result (e : ErrorCode) (w : Word) : (s.raise e w).result = s.result := rfl
@[simp] theorem State.raise_out (e : ErrorCode) (w : Word) : (s.raise e w).out = s.out := rfl
@[simp] theorem State.raise_taken (e : ErrorCode) (w : Word) : (s.raise e w).taken = s.taken := rfl
@[simp] theorem State.raise_pending (e : ErrorCode) (w : Word) : (s.raise e w).pending = s.pending := rfl
@[simp] theorem State.raise_responses (e : ErrorCode) (w : Word) : (s.raise e w).responses = s.responses := rfl

@[simp] theorem State.setPending_mode (xs : List Interaction) : (s.setPending xs).mode = s.mode := rfl
@[simp] theorem State.setPending_acc (xs : List Interaction) : (s.setPending xs).acc = s.acc := rfl
@[simp] theorem State.setPending_cnt (xs : List Interaction) : (s.setPending xs).cnt = s.cnt := rfl
@[simp] theorem State.setPending_ecode (xs : List Interaction) : (s.setPending xs).ecode = s.ecode := rfl
@[simp] theorem State.setPending_ecmd (xs : List Interaction) : (s.setPending xs).ecmd = s.ecmd := rfl
@[simp] theorem State.setPending_result (xs : List Interaction) : (s.setPending xs).result = s.result := rfl
@[simp] theorem State.setPending_out (xs : List Interaction) : (s.setPending xs).out = s.out := rfl
@[simp] theorem State.setPending_taken (xs : List Interaction) : (s.setPending xs).taken = s.taken := rfl
@[simp] theorem State.setPending_pending (xs : List Interaction) : (s.setPending xs).pending = xs := rfl
@[simp] theorem State.setPending_responses (xs : List Interaction) : (s.setPending xs).responses = s.responses := rfl

@[simp] theorem State.respond_mode (r : Response) : (s.respond r).mode = s.mode := rfl
@[simp] theorem State.respond_acc (r : Response) : (s.respond r).acc = s.acc := rfl
@[simp] theorem State.respond_cnt (r : Response) : (s.respond r).cnt = s.cnt := rfl
@[simp] theorem State.respond_ecode (r : Response) : (s.respond r).ecode = s.ecode := rfl
@[simp] theorem State.respond_ecmd (r : Response) : (s.respond r).ecmd = s.ecmd := rfl
@[simp] theorem State.respond_result (r : Response) : (s.respond r).result = s.result := rfl
@[simp] theorem State.respond_out (r : Response) : (s.respond r).out = s.out := rfl
@[simp] theorem State.respond_taken (r : Response) : (s.respond r).taken = s.taken := rfl
@[simp] theorem State.respond_pending (r : Response) : (s.respond r).pending = s.pending := rfl
@[simp] theorem State.respond_responses (r : Response) : (s.respond r).responses = s.responses ++ [r] := rfl

@[simp] theorem State.setTaken_mode (n : Nat) : (s.setTaken n).mode = s.mode := rfl
@[simp] theorem State.setTaken_acc (n : Nat) : (s.setTaken n).acc = s.acc := rfl
@[simp] theorem State.setTaken_cnt (n : Nat) : (s.setTaken n).cnt = s.cnt := rfl
@[simp] theorem State.setTaken_ecode (n : Nat) : (s.setTaken n).ecode = s.ecode := rfl
@[simp] theorem State.setTaken_ecmd (n : Nat) : (s.setTaken n).ecmd = s.ecmd := rfl
@[simp] theorem State.setTaken_result (n : Nat) : (s.setTaken n).result = s.result := rfl
@[simp] theorem State.setTaken_out (n : Nat) : (s.setTaken n).out = s.out := rfl
@[simp] theorem State.setTaken_taken (n : Nat) : (s.setTaken n).taken = n := rfl
@[simp] theorem State.setTaken_pending (n : Nat) : (s.setTaken n).pending = s.pending := rfl
@[simp] theorem State.setTaken_responses (n : Nat) : (s.setTaken n).responses = s.responses := rfl

end

end Sys2Proof.Machine
end

