-- ==== Sys2Proof/Laws/Exec.lean ====
section
/-! SUPPORT. Everything a command and a step can do, said once: later proofs cite these and do not unfold the meanings. -/

namespace Sys2Proof.Machine

/-- What the body of a command's rule does to a state, for a command allowed in its mode. -/
def Body (i : Instr) (s t : State) : Prop :=
  match i with
  | .nop => t = s
  | .clr => t = s.clear
  | .encByte d => t = encByteBody d s
  | .encEnd => t = encEndBody s
  | .decSym c =>
    (idx c = none ∧ t = s.raise .invalidSymbol (encodeCmd i)) ∨ ∃ v, idx c = some v ∧ t = decSymBody v s
  | .decEnd => t = s.closeSession
  | .lutSym v => t = s.setResult (lut v)
  | .lutIdx c =>
    (idx c = none ∧ t = s.raise .invalidSymbol (encodeCmd i)) ∨ ∃ v, idx c = some v ∧ t = s.setResult (groupToByte v)

/-- The command step's three checks, as a result: `perform` with a body that answers. -/
theorem perform_cases (i : Instr) (s : State) (body : State → Result) :
    (s.mode = .error ∧ perform i s body = .next s) ∨
    (s.mode ≠ .error ∧ allowed i s.mode = false ∧
      perform i s body = .next (s.raise .sequenceError (encodeCmd i))) ∨
    (s.mode ≠ .error ∧ allowed i s.mode = true ∧ perform i s body = body s) := by
  unfold perform
  by_cases h : s.mode = .error
  · exact .inl ⟨h, if_pos h⟩
  · cases ha : allowed i s.mode with
    | false => exact .inr (.inl ⟨h, rfl, by rw [if_neg h, if_neg (by simp)]⟩)
    | true => exact .inr (.inr ⟨h, rfl, by rw [if_neg h, if_pos rfl]⟩)

/-- A command answers a next state in every state, and that state is one of four. -/
theorem exec_cases (i : Instr) (s : State) : ∃ t, exec i s = .next t ∧
    ((s.mode = .error ∧ i ≠ .clr ∧ t = s) ∨
    (i = .clr ∧ t = s.clear) ∨
    (s.mode ≠ .error ∧ allowed i s.mode = false ∧ t = s.raise .sequenceError (encodeCmd i)) ∨
    (s.mode ≠ .error ∧ i ≠ .clr ∧ allowed i s.mode = true ∧ Body i s t)) := by
  by_cases hc : i = .clr
  · subst hc
    exact ⟨s.clear, rfl, .inr (.inl ⟨rfl, rfl⟩)⟩
  · obtain ⟨body, t, he, hb, hB⟩ : ∃ (body : State → Result) (t : State),
        exec i s = perform i s body ∧ body s = .next t ∧ Body i s t := by
      cases i with
      | clr => exact absurd rfl hc
      | nop => exact ⟨.next, s, rfl, rfl, rfl⟩
      | encByte d => exact ⟨fun s => .next (encByteBody d s), _, rfl, rfl, rfl⟩
      | encEnd => exact ⟨fun s => .next (encEndBody s), _, rfl, rfl, rfl⟩
      | decEnd => exact ⟨fun s => .next s.closeSession, _, rfl, rfl, rfl⟩
      | lutSym v => exact ⟨fun s => .next (s.setResult (lut v)), _, rfl, rfl, rfl⟩
      | decSym c =>
        refine ⟨fun s => match idx c with
          | none => .next (s.raise .invalidSymbol (encodeCmd (.decSym c)))
          | some v => .next (decSymBody v s), ?_⟩
        cases h : idx c with
        | none => exact ⟨_, by simp only [exec, execDecSym, h], rfl, .inl ⟨h, rfl⟩⟩
        | some v => exact ⟨_, by simp only [exec, execDecSym, h], rfl, .inr ⟨v, h, rfl⟩⟩
      | lutIdx c =>
        refine ⟨fun s => match idx c with
          | none => .next (s.raise .invalidSymbol (encodeCmd (.lutIdx c)))
          | some v => .next (s.setResult (groupToByte v)), ?_⟩
        cases h : idx c with
        | none => exact ⟨_, by simp only [exec, execLutIdx, h], rfl, .inl ⟨h, rfl⟩⟩
        | some v => exact ⟨_, by simp only [exec, execLutIdx, h], rfl, .inr ⟨v, h, rfl⟩⟩
    rcases perform_cases i s body with ⟨hm, hp⟩ | ⟨hm, ha, hp⟩ | ⟨hm, ha, hp⟩
    · exact ⟨s, by rw [he, hp], .inl ⟨hm, hc, rfl⟩⟩
    · exact ⟨_, by rw [he, hp], .inr (.inr (.inl ⟨hm, ha, rfl⟩))⟩
    · exact ⟨t, by rw [he, hp, hb], .inr (.inr (.inr ⟨hm, hc, ha, hB⟩))⟩

/-- An illegal word: nothing in ERROR mode, else error entry. -/
theorem illegalCommand_cases (w : Word) (s : State) :
    (s.mode = .error ∧ illegalCommand w s = s) ∨
    (s.mode ≠ .error ∧ illegalCommand w s = s.raise .illegalCommand w) := by
  unfold illegalCommand
  by_cases h : s.mode = .error
  · exact .inl ⟨h, if_pos h⟩
  · exact .inr ⟨h, if_neg h⟩

/-- Taking an item writes the host's side only. -/
theorem hostTake_cases (s : State) :
    (∃ b, s.out[s.taken]? = some b ∧ hostTake s = (s.setTaken (s.taken + 1)).respond (.item (some b))) ∨
    (s.out[s.taken]? = none ∧ hostTake s = s.respond (.item none)) := by
  unfold hostTake
  cases h : s.out[s.taken]? with
  | none => exact .inr ⟨rfl, rfl⟩
  | some b => exact .inl ⟨b, rfl, rfl⟩

/-- A step in a state with nothing waiting. -/
theorem step_of_idle (s : State) (h : s.pending = []) : step s = .next s := by
  unfold step stepHost
  rw [h]

/-- A step performs the oldest waiting interaction. -/
theorem step_of_pending (s : State) (x : Interaction) (rest : List Interaction) (h : s.pending = x :: rest) :
    step s = interact x (s.setPending rest) := by
  unfold step stepHost
  rw [h]

end Sys2Proof.Machine
end

