-- ==== Sys2Proof/Laws/Items.lean ====
section
/-! SUPPORT. How the items of a run are marked: what `markItems` reads, and where it can be cut. -/

namespace Sys2Proof.Machine

/-- Of the state before a run, the marks read `out` only. -/
theorem markItems_congr (sofar : List Byte) (s s' : State) (ts : List State) (h : s'.out = s.out) :
    markItems sofar s' ts = markItems sofar s ts := by
  cases ts with
  | nil => rfl
  | cons t rest => simp only [markItems, h]

/-- Nothing is carried over a state in IDLE or ERROR: the marks of a run are those up to it and those after it. -/
theorem markItems_append (sofar : List Byte) (s t : State) (ts us : List State) (ht : t.mode = .idle ∨ t.mode = .error) :
    markItems sofar s (ts ++ t :: us) = markItems sofar s (ts ++ [t]) ++ markItems [] t us := by
  induction ts generalizing sofar s with
  | nil => rcases ht with ht | ht <;> simp [markItems, ht]
  | cons r rest ih => cases hr : r.mode <;> simp [markItems, hr, ih]

/-- While a session stays open, its items are carried along and none is marked. -/
theorem markItems_open (sofar : List Byte) (s t : State) (us : List State) (ht : t.mode = .enc ∨ t.mode = .dec) :
    markItems sofar s (t :: us) = markItems (sofar ++ t.out.drop s.out.length) t us := by
  rcases ht with ht | ht <;> simp only [markItems, ht]

end Sys2Proof.Machine
end

