-- ==== Sys2Proof/Laws/Operands.lean ====
section
/-! SUPPORT. Operands, slices and the loop over complete groups in exact arithmetic. -/

namespace Sys2Proof.Machine

theorem shiftInByte_toNat (a : Acc) (d : Byte) (h : a.toNat < 16) :
    (shiftInByte a d).toNat = a.toNat * 256 + d.toNat := by
  have := d.isLt
  simp only [shiftInByte, BitVec.toNat_or, BitVec.toNat_shiftLeft, BitVec.toNat_setWidth]
  rw [Nat.shiftLeft_eq, Nat.mod_eq_of_lt (by omega), Nat.mod_eq_of_lt (by omega), ← Nat.shiftLeft_eq,
    ← Nat.shiftLeft_add_eq_or_of_lt this, Nat.shiftLeft_eq]

theorem shiftInGroup_toNat (a : Acc) (v : Group) (h : a.toNat < 128) :
    (shiftInGroup a v).toNat = a.toNat * 32 + v.toNat := by
  have := v.isLt
  simp only [shiftInGroup, BitVec.toNat_or, BitVec.toNat_shiftLeft, BitVec.toNat_setWidth]
  rw [Nat.shiftLeft_eq, Nat.mod_eq_of_lt (by omega), Nat.mod_eq_of_lt (by omega), ← Nat.shiftLeft_eq,
    ← Nat.shiftLeft_add_eq_or_of_lt this, Nat.shiftLeft_eq]

theorem groupAt_eq (t : Acc) (n : Nat) : groupAt t n = BitVec.ofNat 5 (t.toNat / 2 ^ (n - 5)) := by
  simp only [groupAt, BitVec.extractLsb', Nat.shiftRight_eq_div_pow]

theorem byteAt_eq (t : Acc) (n : Nat) : byteAt t n = BitVec.ofNat 8 (t.toNat / 2 ^ (n - 8)) := by
  simp only [byteAt, BitVec.extractLsb', Nat.shiftRight_eq_div_pow]

theorem padGroup_eq (a : Acc) (n : Nat) : padGroup a n = BitVec.ofNat 5 (a.toNat * 2 ^ (5 - n)) := by
  apply BitVec.eq_of_toNat_eq
  simp only [padGroup, BitVec.toNat_setWidth, BitVec.toNat_shiftLeft, Nat.shiftLeft_eq, BitVec.toNat_ofNat]
  exact Nat.mod_mod_of_dvd _ (by decide)

theorem newestBits_toNat (t : Acc) (n : Nat) : (newestBits t n).toNat = t.toNat % 2 ^ n := by
  have := t.isLt
  have : t.toNat % 2 ^ n ≤ t.toNat := Nat.mod_le _ _
  simp only [newestBits, BitVec.toNat_ofNat]
  omega

/-- `t mod 2^n` has no bit at or above position `n` (10_state.md R25). -/
theorem newestBits_lt (t : Acc) (n : Nat) : (newestBits t n).toNat < 2 ^ n := by
  rw [newestBits_toNat]
  exact Nat.mod_lt _ (Nat.two_pow_pos n)

/-- One complete group: the loop of ENC_BYTE runs once. -/
theorem drainGroups_once (t : Acc) (fuel n : Nat) (h5 : 5 ≤ n) (h : n < 10) (hf : 2 ≤ fuel) :
    drainGroups t fuel n = ([lut (groupAt t n)], n - 5) := by
  obtain ⟨k, rfl⟩ : ∃ k, fuel = k + 2 := ⟨fuel - 2, by omega⟩
  rw [drainGroups, if_pos h5, drainGroups, if_neg (by omega)]

/-- Two complete groups: the loop of ENC_BYTE runs twice. -/
theorem drainGroups_twice (t : Acc) (fuel n : Nat) (h10 : 10 ≤ n) (h : n < 15) (hf : 3 ≤ fuel) :
    drainGroups t fuel n = ([lut (groupAt t n), lut (groupAt t (n - 5))], n - 5 - 5) := by
  obtain ⟨k, rfl⟩ : ∃ k, fuel = k + 3 := ⟨fuel - 3, by omega⟩
  rw [drainGroups, if_pos (by omega), drainGroups, if_pos (by omega), drainGroups, if_neg (by omega)]

/-- What the loop of ENC_BYTE leaves, in every state: a remainder below 5, and as many items as it took groups. -/
theorem drainGroups_spec (t : Acc) (fuel n : Nat) (hf : n ≤ fuel) :
    (drainGroups t fuel n).2 = n % 5 ∧ (drainGroups t fuel n).1.length = n / 5 ∧
      ∀ b ∈ (drainGroups t fuel n).1, ∃ v, b = lut v := by
  induction fuel generalizing n with
  | zero =>
    obtain rfl : n = 0 := by omega
    simp [drainGroups]
  | succ fuel ih =>
    rw [drainGroups]
    split
    next h =>
      obtain ⟨h2, hl, hm⟩ := ih (n - 5) (by omega)
      refine ⟨by simp only [h2]; omega, by simp only [List.length_cons, hl]; omega, ?_⟩
      intro b hb
      rcases List.mem_cons.1 hb with rfl | hb
      · exact ⟨_, rfl⟩
      · exact hm b hb
    next h => exact ⟨by simp only []; omega, by simp only [List.length_nil]; omega, by simp⟩

end Sys2Proof.Machine
end

