-- ==== Sys2Proof/Laws/PerInstr.lean ====
section
/-! SUPPORT. Statements made per command. `LegalWord`: the encoder never writes an illegal word (30_encoding.md R61, R63),
so no command is refused on the way through its own word. -/

namespace Sys2Proof.Laws

/-- `encodeCmd i` meets the legality predicate. -/
def LegalWord.Statement (i : Instr) : Prop := legal (encodeCmd i) = true

theorem LegalWord.nop : LegalWord.Statement .nop := rfl

theorem LegalWord.clr : LegalWord.Statement .clr := rfl

theorem LegalWord.encByte (d : Byte) : LegalWord.Statement (.encByte d) := by
  unfold LegalWord.Statement; revert d; decide

theorem LegalWord.encEnd : LegalWord.Statement .encEnd := rfl

theorem LegalWord.decSym (c : Byte) : LegalWord.Statement (.decSym c) := by
  unfold LegalWord.Statement; revert c; decide

theorem LegalWord.decEnd : LegalWord.Statement .decEnd := rfl

theorem LegalWord.lutSym (v : Group) : LegalWord.Statement (.lutSym v) := by
  unfold LegalWord.Statement; revert v; decide

theorem LegalWord.lutIdx (c : Byte) : LegalWord.Statement (.lutIdx c) := by
  unfold LegalWord.Statement; revert c; decide

end Sys2Proof.Laws
end

