-- ==== Sys2Proof/Tests/Slice0.lean ====
section
/-! SUPPORT. Tests on the spec's own examples (95_test_vectors.md, numbered V, S, E, D, and the rules' corner cases), and for
every statement that has hypotheses a witness: concrete states and operands that meet them. -/

namespace Sys2Proof.Tests

open Sys2Proof.Machine

/-- A start state of 95_test_vectors.md section 3: MODE, ACC and CNT as given, no error, RESULT zero. -/
def at_ (m : Mode) (acc : Acc) (cnt : Cnt) : State := { State.reset with mode := m, acc := acc, cnt := cnt }

/-- A residue state in ENC mode (V7, V14). -/
def inEnc : State := at_ .enc 0x001 3

/-- A residue state in DEC mode (V11, V58). -/
def inDec : State := at_ .dec 0x001 2

/-- The ERROR state of V59 to V62. -/
def inErr : State :=
  { at_ .error 0x001 2 with ecode := .invalidSymbol, ecmd := 0x4041, result := 0x1F }

/-- IDLE with two items out, of which the host has taken one. -/
def withItems : State := { State.reset with out := [0x6D, 0x65], taken := 1, result := 0x6D }

/-- `s` with one interaction waiting. -/
def waiting (x : Interaction) (s : State) : State := { s with pending := [x] }

/-- The next state, if there is one. -/
def nextOf (r : Result) : Option State :=
  match r with
  | .next t => some t
  | _ => none

/-- The right side of a row of 95_test_vectors.md section 3: the items of one command, then MODE, ACC, CNT, ECODE, ECMD
and RESULT after it. -/
structure End where
  items : List Byte
  mode : Mode
  acc : Nat
  cnt : Nat
  ecode : ErrorCode
  ecmd : Nat
  result : Nat
  deriving DecidableEq, Repr

/-- The row of `w` from `s`. -/
def row (s : State) (w : Word) : Option End :=
  (nextOf (step (s.given w))).map fun t =>
    ⟨t.out.drop s.out.length, t.mode, t.acc.toNat, t.cnt.toNat, t.ecode, t.ecmd.toNat, t.result.toNat⟩

/-! ### Widths and encoding -/

theorem test_widths_of_R7 :
    (Byte, Group, Acc, Cnt, Word, RegIndex) =
      (BitVec Config.byteW, BitVec Config.groupW, BitVec Config.accW, BitVec Config.cntW, BitVec Config.cmdW,
        BitVec Config.regIndexW) ∧
    alphabet.toList.length = Config.lutN := ⟨rfl, by decide⟩

theorem test_ecode_width_of_R7 : ErrorCode.sequenceError.code = (3 : BitVec Config.ecodeW) := rfl

theorem test_decode_nop : decodeCmd 0b0000000000000000 = .ok .nop := by rfl
theorem test_decode_clr : decodeCmd 0b0001000000000000 = .ok .clr := by rfl
theorem test_decode_encByte : decodeCmd 0b0010000010100101 = .ok (.encByte 0b10100101) := by rfl
theorem test_decode_encEnd : decodeCmd 0b0011000000000000 = .ok .encEnd := by rfl
theorem test_decode_decSym : decodeCmd 0b0100000001101101 = .ok (.decSym 0b01101101) := by rfl
theorem test_decode_decEnd : decodeCmd 0b0101000000000000 = .ok .decEnd := by rfl
theorem test_decode_lutSym : decodeCmd 0b0110000000011010 = .ok (.lutSym 0b11010) := by rfl
theorem test_decode_lutIdx : decodeCmd 0b0111000011111110 = .ok (.lutIdx 0b11111110) := by rfl

/-- Only the words of 30_encoding.md R62's forms have terms, so no term of `Instr` is ill formed. -/
theorem test_every_operand_is_well_formed :
    (∀ d, (Instr.encByte d).wellFormed = true) ∧ (∀ v, (Instr.lutSym v).wellFormed = true) := ⟨fun _ => rfl, fun _ => rfl⟩

/-- An ill-formed word for each clause of 30_encoding.md R63, and both ends of the reserved opcodes (V63, V66). -/
theorem test_illegal_words :
    legal 0x8000 = false ∧ legal 0xFFFF = false ∧ legal 0x2161 = false ∧ legal 0x4F61 = false ∧ legal 0x0001 = false ∧
    legal 0x1001 = false ∧ legal 0x3001 = false ∧ legal 0x5080 = false ∧ legal 0x6020 = false ∧ legal 0x601F = true ∧
    legal 0x70FF = true := by decide

/-- Operands out of range are refused by the assembler (30_encoding.md R67, R68), those at the end of the range taken. -/
theorem test_assembler_ranges :
    Asm.expand (.encByte 256) = none ∧ Asm.expand (.encByte 255) = some [.encByte 0xFF] ∧
    Asm.expand (.lutSym 32) = none ∧ Asm.expand (.lutSym 31) = some [.lutSym 31] ∧
    Asm.expand (.decSym (.chr 'A')) = none ∧ Asm.expand (.decSym (.num 0x41)) = some [.decSym 0x41] ∧
    Asm.expand (.lutIdx (.chr '7')) = some [.lutIdx 0x37] ∧ Asm.expand (.lutIdx (.num 256)) = none ∧ Asm.expand (.encodeBytes [0x61, 256]) = none ∧
    Asm.expand (.encodeText [Char.ofNat 128]) = none ∧ Asm.expand (.decodeText ['m', '1']) = none := by decide

/-! ### One command on the spec's vectors -/

theorem test_encByte_vectors_V1_to_V12 :
    row (at_ .idle 0x000 0) 0x2061 = some ⟨[0x6D], .enc, 0x001, 3, .noError, 0, 0⟩ ∧
    row (at_ .idle 0x000 0) 0x2000 = some ⟨[0x61], .enc, 0x000, 3, .noError, 0, 0⟩ ∧
    row (at_ .idle 0x000 0) 0x20FF = some ⟨[0x37], .enc, 0x007, 3, .noError, 0, 0⟩ ∧
    row (at_ .idle 0x000 0) 0x2080 = some ⟨[0x71], .enc, 0x000, 3, .noError, 0, 0⟩ ∧
    row (at_ .idle 0x000 0) 0x2001 = some ⟨[0x61], .enc, 0x001, 3, .noError, 0, 0⟩ ∧
    row (at_ .enc 0x007 3) 0x20FF = some ⟨[0x37, 0x37], .enc, 0x001, 1, .noError, 0, 0⟩ ∧
    row (at_ .enc 0x001 1) 0x2000 = some ⟨[0x71], .enc, 0x000, 4, .noError, 0, 0⟩ ∧
    row (at_ .enc 0x00F 4) 0x20FF = some ⟨[0x37, 0x37], .enc, 0x003, 2, .noError, 0, 0⟩ ∧
    row (at_ .enc 0x002 2) 0x2040 = some ⟨[0x73, 0x61], .enc, 0x000, 0, .noError, 0, 0⟩ ∧
    row (at_ .enc 0x000 4) 0x2000 = some ⟨[0x61, 0x61], .enc, 0x000, 2, .noError, 0, 0⟩ ∧
    row (at_ .dec 0x001 2) 0x2061 = some ⟨[], .error, 0x001, 2, .sequenceError, 0x2061, 0⟩ ∧
    row (at_ .idle 0x000 0) 0x2161 = some ⟨[], .error, 0x000, 0, .illegalCommand, 0x2161, 0⟩ := by decide

theorem test_encEnd_vectors_V13_to_V20 :
    row (at_ .idle 0x000 0) 0x3000 = some ⟨[], .idle, 0x000, 0, .noError, 0, 0⟩ ∧
    row (at_ .enc 0x001 3) 0x3000 = some ⟨[0x65], .idle, 0x000, 0, .noError, 0, 0⟩ ∧
    row (at_ .enc 0x001 1) 0x3000 = some ⟨[0x71], .idle, 0x000, 0, .noError, 0, 0⟩ ∧
    row (at_ .enc 0x00F 4) 0x3000 = some ⟨[0x36], .idle, 0x000, 0, .noError, 0, 0⟩ ∧
    row (at_ .enc 0x003 2) 0x3000 = some ⟨[0x79], .idle, 0x000, 0, .noError, 0, 0⟩ ∧
    row (at_ .enc 0x000 0) 0x3000 = some ⟨[], .idle, 0x000, 0, .noError, 0, 0⟩ ∧
    row (at_ .dec 0x001 2) 0x3000 = some ⟨[], .error, 0x001, 2, .sequenceError, 0x3000, 0⟩ ∧
    row (at_ .idle 0x000 0) 0x3001 = some ⟨[], .error, 0x000, 0, .illegalCommand, 0x3001, 0⟩ := by decide

theorem test_decSym_vectors_V21_to_V26 :
    row (at_ .idle 0x000 0) 0x4061 = some ⟨[], .dec, 0x000, 5, .noError, 0, 0⟩ ∧
    row (at_ .idle 0x000 0) 0x4037 = some ⟨[], .dec, 0x01F, 5, .noError, 0, 0⟩ ∧
    row (at_ .dec 0x007 3) 0x4037 = some ⟨[0xFF], .dec, 0x000, 0, .noError, 0, 0⟩ ∧
    row (at_ .dec 0x07F 7) 0x4037 = some ⟨[0xFF], .dec, 0x00F, 4, .noError, 0, 0⟩ ∧
    row (at_ .dec 0x003 2) 0x4037 = some ⟨[], .dec, 0x07F, 7, .noError, 0, 0⟩ ∧
    row (at_ .dec 0x00C 5) 0x4066 = some ⟨[0x61], .dec, 0x001, 2, .noError, 0, 0⟩ := by decide

theorem test_decSym_vectors_V27_to_V36 :
    row (at_ .idle 0x000 0) 0x4041 = some ⟨[], .error, 0x000, 0, .invalidSymbol, 0x4041, 0⟩ ∧
    row (at_ .idle 0x000 0) 0x4030 = some ⟨[], .error, 0x000, 0, .invalidSymbol, 0x4030, 0⟩ ∧
    row (at_ .idle 0x000 0) 0x4031 = some ⟨[], .error, 0x000, 0, .invalidSymbol, 0x4031, 0⟩ ∧
    row (at_ .idle 0x000 0) 0x4038 = some ⟨[], .error, 0x000, 0, .invalidSymbol, 0x4038, 0⟩ ∧
    row (at_ .idle 0x000 0) 0x403D = some ⟨[], .error, 0x000, 0, .invalidSymbol, 0x403D, 0⟩ ∧
    row (at_ .idle 0x000 0) 0x4080 = some ⟨[], .error, 0x000, 0, .invalidSymbol, 0x4080, 0⟩ ∧
    row (at_ .idle 0x000 0) 0x40FF = some ⟨[], .error, 0x000, 0, .invalidSymbol, 0x40FF, 0⟩ ∧
    row (at_ .dec 0x001 2) 0x405A = some ⟨[], .error, 0x001, 2, .invalidSymbol, 0x405A, 0⟩ ∧
    row (at_ .enc 0x001 3) 0x4041 = some ⟨[], .error, 0x001, 3, .sequenceError, 0x4041, 0⟩ ∧
    row (at_ .idle 0x000 0) 0x4F61 = some ⟨[], .error, 0x000, 0, .illegalCommand, 0x4F61, 0⟩ := by decide

theorem test_decEnd_vectors_V37_to_V41 :
    row (at_ .idle 0x000 0) 0x5000 = some ⟨[], .idle, 0x000, 0, .noError, 0, 0⟩ ∧
    row (at_ .dec 0x000 1) 0x5000 = some ⟨[], .idle, 0x000, 0, .noError, 0, 0⟩ ∧
    row (at_ .dec 0x07F 7) 0x5000 = some ⟨[], .idle, 0x000, 0, .noError, 0, 0⟩ ∧
    row (at_ .enc 0x001 3) 0x5000 = some ⟨[], .error, 0x001, 3, .sequenceError, 0x5000, 0⟩ ∧
    row (at_ .idle 0x000 0) 0x5080 = some ⟨[], .error, 0x000, 0, .illegalCommand, 0x5080, 0⟩ := by decide

theorem test_lutSym_vectors_V42_to_V46_and_V53 :
    row (at_ .idle 0x000 0) 0x6000 = some ⟨[], .idle, 0x000, 0, .noError, 0, 0x61⟩ ∧
    row (at_ .idle 0x000 0) 0x6019 = some ⟨[], .idle, 0x000, 0, .noError, 0, 0x7A⟩ ∧
    row (at_ .idle 0x000 0) 0x601A = some ⟨[], .idle, 0x000, 0, .noError, 0, 0x32⟩ ∧
    row (at_ .idle 0x000 0) 0x601F = some ⟨[], .idle, 0x000, 0, .noError, 0, 0x37⟩ ∧
    row (at_ .idle 0x000 0) 0x6020 = some ⟨[], .error, 0x000, 0, .illegalCommand, 0x6020, 0⟩ ∧
    row (at_ .enc 0x001 3) 0x600C = some ⟨[], .error, 0x001, 3, .sequenceError, 0x600C, 0⟩ := by decide

theorem test_lutIdx_vectors_V47_to_V52_and_V54 :
    row (at_ .idle 0x000 0) 0x7061 = some ⟨[], .idle, 0x000, 0, .noError, 0, 0x00⟩ ∧
    row (at_ .idle 0x000 0) 0x707A = some ⟨[], .idle, 0x000, 0, .noError, 0, 0x19⟩ ∧
    row (at_ .idle 0x000 0) 0x7032 = some ⟨[], .idle, 0x000, 0, .noError, 0, 0x1A⟩ ∧
    row (at_ .idle 0x000 0) 0x7037 = some ⟨[], .idle, 0x000, 0, .noError, 0, 0x1F⟩ ∧
    row (at_ .idle 0x000 0) 0x7041 = some ⟨[], .error, 0x000, 0, .invalidSymbol, 0x7041, 0⟩ ∧
    row { at_ .idle 0x000 0 with result := 0x55 } 0x7000 = some ⟨[], .error, 0x000, 0, .invalidSymbol, 0x7000, 0x55⟩ ∧
    row (at_ .dec 0x001 2) 0x7061 = some ⟨[], .error, 0x001, 2, .sequenceError, 0x7061, 0⟩ := by decide

theorem test_nop_vectors_V55_V56 :
    row { at_ .enc 0x001 3 with result := 0x6D } 0x0000 = some ⟨[], .enc, 0x001, 3, .noError, 0, 0x6D⟩ ∧
    row (at_ .idle 0x000 0) 0x0001 = some ⟨[], .error, 0x000, 0, .illegalCommand, 0x0001, 0⟩ := by decide

theorem test_clr_vectors_V57_to_V60 :
    row { at_ .enc 0x001 3 with result := 0x6D } 0x1000 = some ⟨[], .idle, 0x000, 0, .noError, 0, 0⟩ ∧
    row { at_ .dec 0x001 2 with result := 0x1F } 0x1000 = some ⟨[], .idle, 0x000, 0, .noError, 0, 0⟩ ∧
    row inErr 0x1000 = some ⟨[], .idle, 0x000, 0, .noError, 0, 0⟩ ∧
    row inErr 0x1001 = some ⟨[], .error, 0x001, 2, .invalidSymbol, 0x4041, 0x1F⟩ := by decide

theorem test_error_mode_and_reserved_vectors_V61_to_V66 :
    row inErr 0x8000 = some ⟨[], .error, 0x001, 2, .invalidSymbol, 0x4041, 0x1F⟩ ∧
    row inErr 0x4061 = some ⟨[], .error, 0x001, 2, .invalidSymbol, 0x4041, 0x1F⟩ ∧
    row (at_ .idle 0x000 0) 0x8000 = some ⟨[], .error, 0x000, 0, .illegalCommand, 0x8000, 0⟩ ∧
    row (at_ .idle 0x000 0) 0x9061 = some ⟨[], .error, 0x000, 0, .illegalCommand, 0x9061, 0⟩ ∧
    row (at_ .idle 0x000 0) 0xF000 = some ⟨[], .error, 0x000, 0, .illegalCommand, 0xF000, 0⟩ ∧
    row (at_ .idle 0x000 0) 0xFFFF = some ⟨[], .error, 0x000, 0, .illegalCommand, 0xFFFF, 0⟩ := by decide

theorem test_register_reads_V67_to_V75 :
    State.reset.readRegister 0 = 0x0000 ∧
    (at_ .enc 0x000 3).readRegister 0 = 0x0031 ∧
    (at_ .dec 0x000 7).readRegister 0 = 0x0072 ∧
    inErr.readRegister 0 = 0x0123 ∧
    { at_ .error 0x000 3 with ecode := .sequenceError }.readRegister 0 = 0x0333 ∧
    { at_ .error 0x000 0 with ecode := .illegalCommand }.readRegister 0 = 0x0203 ∧
    (at_ .dec 0x07F 7).readRegister 1 = 0x007F ∧
    inErr.readRegister 2 = 0x001F ∧
    inErr.readRegister 3 = 0x4041 := by decide

/-- The table's word runs as the first command after reset (log 1): V1 through `withFetchWord`. -/
theorem test_first_command_after_reset :
    (nextOf (step (State.reset.withFetchWord 16 0x2061))).map (fun t => (t.out, t.mode, t.acc, t.cnt, t.pending)) =
      some ([0x6D], .enc, 0x001, 3, []) := by decide

/-! ### The items a host must discard -/

/-- Program P4: the 61 of the session that 0x4041 aborted, after CLR too. -/
theorem test_void_items_P4 :
    voidItems ([0x406D, 0x4066, 0x4041, 0x1000].map .command) State.reset = [0x61] := by decide

/-- Program P5: the first 6D is of an aborted session; the complete session after CLR stays valid, although a later word
enters ERROR in IDLE. -/
theorem test_void_items_P5 :
    emittedItems ([0x2061, 0x406D, 0x1000, 0x2061, 0x3000, 0x8000].map .command) State.reset =
      [(0x6D, true), (0x6D, false), (0x65, false)] := by decide

/-! ### The reference functions and the assembler -/

/-- S1, E8, E11, E19. -/
theorem test_encode_examples :
    encRef [0x61, 0x61, 0x61] = [0x6D, 0x66, 0x71, 0x77, 0x63] ∧
    encRef [0xFF] = [0x37, 0x34] ∧
    encRef [0xA5, 0x5A] = [0x75, 0x76, 0x6E, 0x61] ∧
    encRef [0x66, 0x6F, 0x6F, 0x62, 0x61, 0x72] = [0x6D, 0x7A, 0x78, 0x77, 0x36, 0x79, 0x74, 0x62, 0x6F, 0x69] := by decide

/-- S2, D2, D6, D11, and the invalid symbol of S5. -/
theorem test_decode_examples :
    decRef [0x6D, 0x66, 0x71, 0x77, 0x63] = some [0x61, 0x61, 0x61] ∧
    decRef [0x61] = some [] ∧
    decRef [0x61, 0x66] = some [0x01] ∧
    decRef [0x6D, 0x66, 0x71, 0x77, 0x63, 0x79, 0x61] = some [0x61, 0x61, 0x61, 0x60] ∧
    decRef [0x6D, 0x41] = none := by decide

/-- Lines of the programs P1, P2, P4 of 95_test_vectors.md section 4. -/
theorem test_assembled_lines :
    (Asm.line "ENC_BYTE 0x61 ; first byte".toList).map (·.map encodeCmd) = some [0x2061] ∧
    (Asm.line "DEC_SYM 'm'".toList).map (·.map encodeCmd) = some [0x406D] ∧
    (Asm.line "LUT_SYM 12".toList).map (·.map encodeCmd) = some [0x600C] ∧
    (Asm.line "ENCODE 0x61, 0x61".toList).map (·.map encodeCmd) = some [0x2061, 0x2061, 0x3000] ∧
    Asm.line "ENC_BYTE".toList = none := by decide

/-! ### Witnesses: states and operands that meet the hypotheses of each statement -/

/-- The premise `BlockInv` in each mode, at both ends of CNT. -/
theorem witness_BlockInv :
    ∀ s ∈ [State.reset, withItems, inEnc, at_ .enc 0 0, at_ .enc 0xF 4, inDec, at_ .dec 0 0, at_ .dec 0x7F 7, inErr],
      BlockInv s := by decide

theorem witness_DecoderAndEncoderAreInverse : decodeCmd 0x601F = .ok (.lutSym 31) := by rfl

theorem witness_TableWordIsTheNextCommand :
    decodeTableWord 16 0x20FF = some (.encByte 0xFF) ∧ decodeTableWord 16 0x7000 = some (.lutIdx 0) := by decide

/-- The smallest and the largest illegal word of opcode 0. -/
theorem witness_NopHasNoEffect :
    ((0x0001 : Word).toNat < 0x1000 ∧ (0x0001 : Word) ≠ 0x0000) ∧
    ((0x0FFF : Word).toNat < 0x1000 ∧ (0x0FFF : Word) ≠ 0x0000) := by decide

theorem witness_ClrClearsAllButOut :
    (0x1000 < (0x1001 : Word).toNat ∧ (0x1001 : Word).toNat < 0x2000) ∧
    (0x1000 < (0x1FFF : Word).toNat ∧ (0x1FFF : Word).toNat < 0x2000) := by decide

theorem witness_LutSymWritesTheSymbol :
    (0x6020 ≤ (0x6020 : Word).toNat ∧ (0x6020 : Word).toNat < 0x7000) ∧
    (0x6020 ≤ (0x6FFF : Word).toNat ∧ (0x6FFF : Word).toNat < 0x7000) := by decide

theorem witness_LutIdxWritesTheIndex :
    (0x7100 ≤ (0x7100 : Word).toNat ∧ (0x7100 : Word).toNat < 0x8000) ∧
    (0x7100 ≤ (0x7FFF : Word).toNat ∧ (0x7FFF : Word).toNat < 0x8000) := by decide

/-- `n = 9` emits one symbol, `n = 10` two; and the ends of the illegal words. -/
theorem witness_EncByteEmitsTheCompleteGroups :
    (BlockInv (at_ .enc 0x001 1) ∧ (at_ .enc 0x001 1).cnt.toNat + 8 = 9) ∧
    (BlockInv (at_ .enc 0x002 2) ∧ (at_ .enc 0x002 2).cnt.toNat + 8 = 10) ∧
    (0x2100 ≤ (0x2100 : Word).toNat ∧ (0x2100 : Word).toNat < 0x3000) ∧
    (0x2100 ≤ (0x2FFF : Word).toNat ∧ (0x2FFF : Word).toNat < 0x3000) := by decide

theorem witness_EncEndPadsAndCloses :
    (BlockInv (at_ .enc 0 0) ∧ (at_ .enc 0 0).cnt.toNat = 0) ∧ (BlockInv (at_ .enc 1 1) ∧ (at_ .enc 1 1).cnt.toNat ≠ 0) ∧
    (0x3000 < (0x3001 : Word).toNat ∧ (0x3001 : Word).toNat < 0x4000) ∧
    (0x3000 < (0x3FFF : Word).toNat ∧ (0x3FFF : Word).toNat < 0x4000) := by decide

/-- `n = 7` emits nothing, `n = 8` a byte; a symbol and no symbol; and the ends of the illegal words. -/
theorem witness_DecSymEmitsTheCompleteByte :
    (BlockInv (at_ .dec 0x003 2) ∧ (at_ .dec 0x003 2).cnt.toNat + 5 = 7) ∧
    (BlockInv (at_ .dec 0x007 3) ∧ (at_ .dec 0x007 3).cnt.toNat + 5 = 8) ∧ idx 0x37 = some 31 ∧ idx 0x38 = none ∧
    (0x4100 ≤ (0x4100 : Word).toNat ∧ (0x4100 : Word).toNat < 0x5000) ∧
    (0x4100 ≤ (0x4FFF : Word).toNat ∧ (0x4FFF : Word).toNat < 0x5000) := by decide

theorem witness_DecEndDiscardsAndCloses :
    (BlockInv State.reset ∧ State.reset.mode = .idle) ∧
    (0x5000 < (0x5001 : Word).toNat ∧ (0x5001 : Word).toNat < 0x6000) ∧
    (0x5000 < (0x5FFF : Word).toNat ∧ (0x5FFF : Word).toNat < 0x6000) := by decide

/-- One state for each row of the table of 41_encoder.md R110. -/
theorem witness_EncEmissionTable :
    (BlockInv State.reset ∧ State.reset.mode = .idle ∧ State.reset.cnt.toNat = 0) ∧
    ∀ c ∈ [0, 1, 2, 3, 4], BlockInv (at_ .enc 0 (BitVec.ofNat 4 c)) ∧ (at_ .enc 0 (BitVec.ofNat 4 c)).cnt.toNat = c := by
  decide

theorem witness_StepRunsTheDecodedCommand :
    (waiting (.command 0x3000) inEnc).pending = .command 0x3000 :: [] ∧ decodeCmd 0x3000 = .ok .encEnd ∧
    (waiting (.command 0x3001) inEnc).pending = .command 0x3001 :: [] ∧ decodeCmd 0x3001 = .error .nonZeroOperand ∧
    inEnc.pending = [] := by decide

/-- A step that enters ERROR mode, and one that stays in it. -/
theorem witness_ErrorEntryIsPrecise :
    (∃ t, step (inEnc.given 0x4041) = .next t ∧ (inEnc.given 0x4041).mode ≠ .error ∧ t.mode = .error) ∧
    ∃ t, step (inErr.given 0x2061) = .next t ∧ (inErr.given 0x2061).mode = .error ∧ t.mode = .error :=
  ⟨⟨_, rfl, by decide⟩, ⟨_, rfl, by decide⟩⟩

/-- 0x60 and 0x38 are the code units just outside the alphabet's two ranges. -/
theorem witness_OnlyInvalidSymbolsRaiseInvalidSymbol :
    (inDec.mode = .dec ∧ ∀ v, lut v ≠ 0x60) ∧ (State.reset.mode = .idle ∧ ∀ v, lut v ≠ 0x38) ∧
    ∃ t, step (inDec.given 0x4060) = .next t ∧ (inDec.given 0x4060).ecode ≠ .invalidSymbol ∧ t.ecode = .invalidSymbol :=
  ⟨by decide, by decide, _, rfl, by decide⟩

theorem witness_ExactlyIllegalWordsRaiseIllegalCommand :
    (legal 0x8000 = false ∧ legal 0x6020 = false ∧ inDec.mode ≠ .error) ∧
    ∃ t, legal 0x601F = true ∧ inDec.ecode ≠ .illegalCommand ∧ step (inDec.given 0x601F) = .next t :=
  ⟨by decide, _, by decide, by decide, rfl⟩

/-- A mode for each "yes" and "no" of the table of 60_exceptions.md R153. -/
theorem witness_SequenceErrorTable :
    State.reset.mode = .idle ∧ inEnc.mode = .enc ∧ inDec.mode = .dec ∧ ∀ s ∈ [State.reset, inEnc, inDec], s.mode ≠ .error := by
  decide

theorem witness_ErrorPriority :
    inErr.mode = .error ∧ (inDec.mode = .dec ∧ legal 0x6020 = false) ∧
    (inEnc.mode = .enc ∧ decodeCmd 0x4041 = .ok (.decSym 0x41) ∧ allowed (.decSym 0x41) inEnc.mode = false) ∧
    (inDec.mode ≠ .error ∧ allowed (.decSym 0x41) inDec.mode = true) := by decide

theorem witness_ErrorModeIgnoresAllButClr :
    inErr.mode = .error ∧ (0x1001 : Word) ≠ 0x1000 ∧ (0x0000 : Word) ≠ 0x1000 := by decide

theorem witness_OnlyClrAndResetLeaveError :
    inErr.mode = .error ∧ (waiting .assertReset inErr).pending = .assertReset :: [] ∧
    ∃ t, (inErr.given 0x1000).mode = .error ∧ step (inErr.given 0x1000) = .next t ∧ t.mode ≠ .error :=
  ⟨by decide, by decide, _, by decide, rfl, by decide⟩

theorem witness_FirstErrorIsKept :
    inErr.mode = .error ∧ ∀ x ∈ [.command 0x1001, .readRegister 3, .takeItem, .command 0x2061],
      x ≠ Interaction.command 0x1000 ∧ x ≠ .assertReset := by decide

/-- A step of each of the four interactions from a state that meets the invariant. -/
theorem witness_StepKeepsInvariant :
    (BlockInv (waiting (.command 0x4041) inDec) ∧ Completes (step (waiting (.command 0x4041) inDec))) ∧
    (BlockInv (waiting (.readRegister 1) inDec) ∧ Completes (step (waiting (.readRegister 1) inDec))) ∧
    (BlockInv (waiting .takeItem withItems) ∧ Completes (step (waiting .takeItem withItems))) ∧
    (BlockInv (waiting .assertReset inErr) ∧ Completes (step (waiting .assertReset inErr))) :=
  ⟨⟨by decide, _, rfl⟩, ⟨by decide, _, rfl⟩, ⟨by decide, _, rfl⟩, ⟨by decide, _, rfl⟩⟩

/-- A state no run reaches, from which CLR establishes the invariant. -/
theorem witness_ClrEstablishesInvariant : InvTaken (at_ .idle 0xFFF 15) ∧ ¬BlockInv (at_ .idle 0xFFF 15) := by decide

theorem witness_OutOnlyGrowsUntilReset :
    (∃ t, BlockInv (inEnc.given 0x20FF) ∧ step (inEnc.given 0x20FF) = .next t ∧ t.out.length = 2) ∧
    ∃ t, BlockInv (waiting .assertReset withItems) ∧ step (waiting .assertReset withItems) = .next t ∧ t.out = [] :=
  ⟨⟨_, by decide, rfl, by decide⟩, ⟨_, by decide, rfl, by decide⟩⟩

theorem witness_EncoderEmitsOnlyAlphabet :
    (Instr.encEnd = .encEnd ∨ ∃ d, Instr.encEnd = .encByte d) ∧ (Instr.encByte 0xFF = .encEnd ∨
      ∃ d, Instr.encByte 0xFF = .encByte d) := ⟨.inl rfl, .inr ⟨_, rfl⟩⟩

theorem witness_ResetSetsEveryElement :
    (waiting .assertReset inErr).pending = .assertReset :: [] ∧ (waiting .assertReset withItems).pending = .assertReset :: [] :=
  by decide

theorem witness_OnlyCommandsAndResetChangeTheBlock :
    (∃ t, step (waiting (.command 0x2061) inEnc) = .next t ∧ t.out ≠ (waiting (.command 0x2061) inEnc).out) ∧
    ∃ t, step (waiting .assertReset inEnc) = .next t ∧ t.mode ≠ (waiting .assertReset inEnc).mode :=
  ⟨⟨_, rfl, by decide⟩, ⟨_, rfl, by decide⟩⟩

/-- The last clause at its boundary: every item taken. -/
theorem witness_HostSideOfAStep :
    Completes (step (waiting (.command 0x2061) inEnc)) ∧ Completes (step (waiting .assertReset inEnc)) ∧
    (waiting .takeItem { withItems with taken := 2 }).out.length ≤ (waiting .takeItem { withItems with taken := 2 }).taken :=
  ⟨⟨_, rfl⟩, ⟨_, rfl⟩, by decide⟩

theorem witness_StatusPacksItsFields : BlockInv inErr ∧ inErr.mode = .error := by decide

theorem witness_RegisterReadHasNoSideEffect :
    (waiting (.readRegister 0) inErr).pending = .readRegister 0 :: [] ∧
    (waiting (.readRegister 3) inErr).pending = .readRegister 3 :: [] := by decide

/-- No item taken, and all that are left. -/
theorem witness_ItemsAreTakenInOrder : ∀ n ∈ [0, 1], withItems.taken + n ≤ withItems.out.length := by decide

theorem witness_ErrOutputFollowsMode :
    (∃ t, step (inEnc.given 0x9061) = .next t ∧ (inEnc.given 0x9061).err = false ∧ t.err = true) ∧
    ∃ t, step (inErr.given 0x1000) = .next t ∧ (inErr.given 0x1000).err = true ∧ t.err = false :=
  ⟨⟨_, rfl, by decide⟩, ⟨_, rfl, by decide⟩⟩

theorem witness_AlphabetIsLettersThenDigits :
    (25 : Group).toNat ≤ 25 ∧ 26 ≤ (26 : Group).toNat ∧ lut 25 = 0x7A ∧ lut 26 = 0x32 := by decide

theorem witness_IdxInvertsTheTable :
    lut 25 = 0x7A ∧ lut 26 = 0x32 ∧ idx 0x60 = none ∧ idx 0x7B = none ∧ idx 0x31 = none ∧ idx 0x38 = none := by decide

theorem witness_LutCommandsUndoEachOther : State.reset.mode = .idle ∧ lut 31 = 0x37 := by decide

/-- The start of the session statements: EncodeSessionComputesEnc, EncodeLengthLaw and RoundTrip, also after earlier
output. -/
theorem witness_EncodeSessionComputesEnc : BlockInv withItems ∧ withItems.mode = .idle := by decide

theorem witness_EncodeResidualLaw :
    BlockInv withItems ∧ withItems.mode = .idle ∧ ([0x61] : List Byte) ≠ [] := by decide

/-- A text without and a text with an invalid symbol, the first and a later one. -/
theorem witness_DecodeSessionComputesDec :
    BlockInv withItems ∧ withItems.mode = .idle ∧ (∀ c ∈ ([0x6D, 0x66] : List Byte), ∃ v, idx c = some v) ∧
    (∀ c ∈ ([] : List Byte), ∃ v, idx c = some v) ∧ idx 0x41 = none := by decide

/-- The session of the first clause, and a state for each row of the table of 42_decoder.md R125. -/
theorem witness_DecodeResidualLaw :
    (BlockInv withItems ∧ withItems.mode = .idle ∧ ([0x6D] : List Byte) ≠ [] ∧ indices [0x6D] = some [12]) ∧
    idx 0x6D = some 12 ∧ (BlockInv State.reset ∧ State.reset.mode = .idle ∧ State.reset.cnt.toNat = 0) ∧
    ∀ c ∈ [0, 1, 2, 3, 4, 5, 6, 7],
      BlockInv (at_ .dec 0 (BitVec.ofNat 4 c)) ∧ (at_ .dec 0 (BitVec.ofNat 4 c)).cnt.toNat = c :=
  ⟨by decide, by decide, by decide, by decide⟩

theorem witness_RoundTrip : BlockInv withItems ∧ withItems.mode = .idle := by decide

theorem witness_EncodeLengthLaw : BlockInv withItems ∧ withItems.mode = .idle := by decide

/-- One session without and one with register reads between its commands, from two different states. -/
theorem witness_EncodeOutputDependsOnItsBytesOnly :
    BlockInv State.reset ∧ BlockInv withItems ∧ State.reset.mode = .idle ∧ withItems.mode = .idle ∧
    ∀ zs ∈ [[.command 0x2061, .command 0x3000], [.readRegister 0, .command 0x2061, .readRegister 1, .command 0x3000]],
      (∀ x ∈ zs, (∃ w, x = .command w) ∨ ∃ i, x = .readRegister i) ∧
        zs.filter (fun x => !(x matches .readRegister _)) = issue (encSession [0x61]) := by
  refine ⟨by decide, by decide, by decide, by decide, ?_⟩
  intro zs h
  simp only [List.mem_cons, List.not_mem_nil, or_false] at h
  rcases h with rfl | rfl <;> exact ⟨by simp, by decide⟩

/-- A text of each of the three lengths. -/
theorem witness_DecodingIsLossy :
    (BlockInv withItems ∧ withItems.mode = .idle) ∧
    ∀ n ∈ [1, 3, 6],
      ((List.replicate n 0x61).length % 8 = 1 ∨ (List.replicate n 0x61).length % 8 = 3 ∨
        (List.replicate n 0x61).length % 8 = 6) ∧
      ∀ c ∈ List.replicate n (0x61 : Byte), ∃ v, idx c = some v :=
  ⟨by decide, fun n h => ⟨by revert n; decide, fun c hc => ⟨0, by rw [List.eq_of_mem_replicate hc]; rfl⟩⟩⟩

/-- An invalid symbol after two valid ones; an illegal word and a word forbidden in ENC after one byte. -/
theorem witness_AbortedSessionItemsAreVoid :
    BlockInv withItems ∧ withItems.mode = .idle ∧ (∀ c ∈ ([0x6D, 0x66] : List Byte), ∃ v, idx c = some v) ∧
    idx 0x41 = none ∧ ([0x61] : List Byte) ≠ [] ∧ legal 0x8000 = false ∧
    (decodeCmd 0x406D = .ok (.decSym 0x6D) ∧ allowed (.decSym 0x6D) .enc = false) := by decide

/-- One session that ends in ERROR and one that ends in IDLE. -/
theorem witness_HostDiscardsAbortedSessions :
    withItems.mode = .idle ∧
    (∀ ys, ys <+: [.command 0x2061] → ys ≠ [] → ∃ t, run ys withItems = .next t ∧ (t.mode = .enc ∨ t.mode = .dec)) ∧
    (∃ u, run ([.command 0x2061] ++ [.command 0x406D]) withItems = .next u ∧ u.mode = .error) ∧
    (∃ u, run ([.command 0x2061] ++ [.command 0x3000]) withItems = .next u ∧ u.mode ≠ .error ∧ u.mode = .idle) ∧
    ∀ x ∈ [.command 0x2061, .takeItem], x ≠ Interaction.assertReset := by
  refine ⟨rfl, fun ys h hn => ?_, ⟨_, rfl, rfl⟩, ⟨_, rfl, by decide, rfl⟩, by decide⟩
  obtain rfl : ys = [.command 0x2061] := by
    rcases List.prefix_cons_iff.1 h with rfl | ⟨zs, rfl, hz⟩
    · exact absurd rfl hn
    · rw [List.prefix_nil.1 hz]
  exact ⟨_, rfl, .inl rfl⟩

theorem witness_PseudoInstructionsExpand :
    'a'.toNat < 128 ∧ (Char.ofNat 127).toNat < 128 ∧ ¬(Char.ofNat 128).toNat < 128 := by decide

/-- `A` is no alphabet character. -/
theorem witness_AssemblerChecksOperandRanges : ∀ v : Group, 'A'.toNat ≠ (lut v).toNat := by decide

end Sys2Proof.Tests
end

section
/-! SUPPORT. What a step can do, as an inversion of `step`: one case for each of the host's interactions
(70_reset_and_hazards.md R190). -/

namespace Sys2Proof.Machine

/-- An issued word is either the word of a command, which is executed, or illegal (60_exceptions.md R154). -/
theorem issueCommand_cases (w : Word) (s : State) :
    (∃ i, decodeCmd w = .ok i ∧ issueCommand w s = exec i s) ∨
    (∃ r, decodeCmd w = .error r ∧ issueCommand w s = .next (illegalCommand w s)) := by
  unfold issueCommand
  cases h : decodeCmd w with
  | ok i => exact .inl ⟨i, rfl, rfl⟩
  | error r => exact .inr ⟨r, rfl, rfl⟩

/-- Every interaction answers a next state (60_exceptions.md R160). -/
theorem interact_completes (x : Interaction) (s : State) : Completes (interact x s) := by
  cases x with
  | command w =>
    rcases issueCommand_cases w s with ⟨i, -, h⟩ | ⟨r, -, h⟩
    · obtain ⟨t, ht, -⟩ := exec_cases i s
      exact ⟨t, h.trans ht⟩
    · exact ⟨_, h⟩
  | readRegister i => exact ⟨_, rfl⟩
  | takeItem => exact ⟨_, rfl⟩
  | assertReset => exact ⟨_, rfl⟩

/-- Every step answers a next state. -/
theorem step_completes (s : State) : Completes (step s) := by
  cases h : s.pending with
  | nil => exact ⟨s, step_of_idle s h⟩
  | cons x rest => exact step_of_pending s x rest h ▸ interact_completes x _

/-- The next state of an interaction, by what was performed. -/
theorem interact_next_cases {x : Interaction} {s t : State} (h : interact x s = .next t) :
    (∃ w i, x = .command w ∧ decodeCmd w = .ok i ∧ exec i s = .next t) ∨
    (∃ w r, x = .command w ∧ decodeCmd w = .error r ∧ t = illegalCommand w s) ∨
    (∃ i, x = .readRegister i ∧ t = hostRead i s) ∨
    (x = .takeItem ∧ t = hostTake s) ∨
    (x = .assertReset ∧ t = hostReset s) := by
  cases x with
  | command w =>
    change issueCommand w s = .next t at h
    rcases issueCommand_cases w s with ⟨i, hd, hi⟩ | ⟨r, hd, hi⟩
    · exact .inl ⟨w, i, rfl, hd, hi ▸ h⟩
    · cases hi ▸ h
      exact .inr (.inl ⟨w, r, rfl, hd, rfl⟩)
  | readRegister i => cases h; exact .inr (.inr (.inl ⟨i, rfl, rfl⟩))
  | takeItem => cases h; exact .inr (.inr (.inr (.inl ⟨rfl, rfl⟩)))
  | assertReset => cases h; exact .inr (.inr (.inr (.inr ⟨rfl, rfl⟩)))

/-- A step performs the oldest waiting interaction, or nothing where none waits. -/
theorem step_next_cases {s t : State} (h : step s = .next t) :
    (s.pending = [] ∧ t = s) ∨
    ∃ x rest, s.pending = x :: rest ∧ interact x (s.setPending rest) = .next t := by
  cases hp : s.pending with
  | nil =>
    cases (step_of_idle s hp).symm.trans h
    exact .inl ⟨rfl, rfl⟩
  | cons x rest => exact .inr ⟨x, rest, rfl, (step_of_pending s x rest hp).symm.trans h⟩

/-- What every step keeps, every number of steps keeps, and there is a state at their end. -/
theorem steps_keep {P : State → Prop} (hstep : ∀ s t, P s → step s = .next t → P t) (k : Nat) (s : State) (hs : P s) :
    ∃ t, steps k s = .next t ∧ P t := by
  induction k generalizing s with
  | zero => exact ⟨s, rfl, hs⟩
  | succ k ih =>
    obtain ⟨u, hu⟩ := step_completes s
    obtain ⟨t, ht, hP⟩ := ih u (hstep s u hs hu)
    exact ⟨t, by rw [steps, hu]; exact ht, hP⟩

end Sys2Proof.Machine
end

section
/-! SUPPORT. The bodies of the commands as a few named writes of the state: how many items they emit and how many
residual bits they keep (10_state.md R22 to R26, R29). -/

namespace Sys2Proof.Machine

@[simp] theorem State.emit_nil (s : State) : s.emit [] = s := by
  simp only [State.emit, List.append_nil]

/-- ENC_BYTE takes `CNT + 8` bits as groups of five and keeps fewer than five, in every state. -/
theorem encByteBody_eq (d : Byte) (s : State) :
    ∃ items n, encByteBody d s = ((s.emit items).setResidue (shiftInByte s.acc d) n).setMode .enc ∧
      n ≤ 4 ∧ items.length = (s.cnt.toNat + 8) / 5 := by
  obtain ⟨hn, hlen, -⟩ :=
    drainGroups_spec (shiftInByte s.acc d) (s.cnt.toNat + 8) (s.cnt.toNat + 8) (Nat.le_refl _)
  exact ⟨_, _, rfl, by omega, hlen⟩

/-- DEC_SYM emits at most one byte, and keeps fewer than eight bits where it found fewer than eight. -/
theorem decSymBody_eq (v : Group) (s : State) :
    ∃ items n, decSymBody v s = ((s.emit items).setResidue (shiftInGroup s.acc v) n).setMode .dec ∧
      items.length ≤ 1 ∧ (s.cnt.toNat ≤ 7 → n ≤ 7) := by
  unfold decSymBody
  by_cases h : 8 ≤ s.cnt.toNat + 5
  · exact ⟨[_], s.cnt.toNat + 5 - 8, if_pos h, by simp, by omega⟩
  · exact ⟨[], s.cnt.toNat + 5, by rw [if_neg h, State.emit_nil], by simp, by omega⟩

/-- ENC_END has no effect outside ENC mode; there it emits at most one symbol and closes the session. -/
theorem encEndBody_cases (s : State) :
    (s.mode ≠ .enc ∧ encEndBody s = s) ∨
    (s.mode = .enc ∧ ∃ items, items.length ≤ 1 ∧ encEndBody s = (s.emit items).closeSession) := by
  unfold encEndBody
  by_cases hm : s.mode = .enc
  · rw [if_pos hm]
    by_cases hc : 0 < s.cnt.toNat
    · exact .inr ⟨hm, [_], by simp, if_pos hc⟩
    · exact .inr ⟨hm, [], by simp, by rw [if_neg hc, State.emit_nil]⟩
  · exact .inl ⟨hm, if_neg hm⟩

/-- How many residual bits an open session of this mode can hold (10_state.md R24, R26). -/
def FitsSession (m : Mode) (n : Nat) : Prop := (m = .enc ∧ n ≤ 4) ∨ (m = .dec ∧ n ≤ 7)

theorem cnt_le_seven {s : State} (h : InvMode s) : s.cnt.toNat ≤ 7 := by
  obtain ⟨hidle, henc, hdec, herr, -⟩ := h
  cases hm : s.mode with
  | idle => rw [(hidle hm).2]; decide
  | enc => exact (henc hm).trans (by decide)
  | dec => exact hdec hm
  | error => exact (herr hm).1

/-- Where ENC_BYTE is allowed, ACC holds at most four residual bits. -/
theorem cnt_le_four_of_allowed {s : State} {d : Byte} (h : InvMode s) (ha : allowed (.encByte d) s.mode = true) :
    s.cnt.toNat ≤ 4 := by
  obtain ⟨hidle, henc, -⟩ := h
  cases hm : s.mode with
  | idle => rw [(hidle hm).2]; decide
  | enc => exact henc hm
  | dec => rw [hm] at ha; cases ha
  | error => rw [hm] at ha; cases ha

/-- The five forms of the body of an allowed command other than CLR: no effect, a write of RESULT, an error entry, the end
of a session, or an open session with new residual bits. -/
theorem body_cases {i : Instr} {s t : State} (hs : InvMode s) (hi : i ≠ .clr) (ha : allowed i s.mode = true)
    (hB : Body i s t) :
    t = s ∨ (∃ r, t = s.setResult r) ∨ (∃ w, t = s.raise .invalidSymbol w) ∨
    (∃ items, items.length ≤ 2 ∧ t = (s.emit items).closeSession) ∨
    (∃ items u n m, items.length ≤ 2 ∧ FitsSession m n ∧ t = ((s.emit items).setResidue u n).setMode m) := by
  cases i with
  | nop => exact .inl hB
  | clr => exact absurd rfl hi
  | encByte d =>
    obtain ⟨items, n, heq, hn, hlen⟩ := encByteBody_eq d s
    have hcnt := cnt_le_four_of_allowed hs ha
    exact .inr (.inr (.inr (.inr ⟨items, _, n, .enc, by omega, .inl ⟨rfl, hn⟩, hB.trans heq⟩)))
  | encEnd =>
    rcases encEndBody_cases s with ⟨-, heq⟩ | ⟨-, items, hlen, heq⟩
    · exact .inl (hB.trans heq)
    · exact .inr (.inr (.inr (.inl ⟨items, by omega, hB.trans heq⟩)))
  | decSym c =>
    rcases hB with ⟨-, rfl⟩ | ⟨v, -, rfl⟩
    · exact .inr (.inr (.inl ⟨_, rfl⟩))
    · obtain ⟨items, n, heq, hlen, hn⟩ := decSymBody_eq v s
      exact .inr (.inr (.inr (.inr ⟨items, _, n, .dec, by omega, .inr ⟨rfl, hn (cnt_le_seven hs)⟩, heq⟩)))
  | decEnd => exact .inr (.inr (.inr (.inl ⟨[], by simp, by rw [State.emit_nil]; exact hB⟩)))
  | lutSym v => exact .inr (.inl ⟨_, hB⟩)
  | lutIdx c =>
    rcases hB with ⟨-, rfl⟩ | ⟨v, -, rfl⟩
    · exact .inr (.inr (.inl ⟨_, rfl⟩))
    · exact .inr (.inl ⟨_, rfl⟩)

/-- The next states of a command under INV_MODE: those of `exec_cases`, with the body in one of its forms. -/
theorem exec_next_cases {i : Instr} {s t : State} (hs : InvMode s) (h : exec i s = .next t) :
    t = s ∨ t = s.clear ∨ (∃ r, t = s.setResult r) ∨
    (s.mode ≠ .error ∧ ∃ e w, e ≠ .noError ∧ t = s.raise e w) ∨
    (s.mode ≠ .error ∧ ∃ items, items.length ≤ 2 ∧ t = (s.emit items).closeSession) ∨
    (s.mode ≠ .error ∧ ∃ items u n m, items.length ≤ 2 ∧ FitsSession m n ∧
      t = ((s.emit items).setResidue u n).setMode m) := by
  obtain ⟨t', ht', hc⟩ := exec_cases i s
  cases ht'.symm.trans h
  rcases hc with ⟨-, -, heq⟩ | ⟨-, heq⟩ | ⟨hm, -, heq⟩ | ⟨hm, hi, ha, hB⟩
  · exact .inl heq
  · exact .inr (.inl heq)
  · exact .inr (.inr (.inr (.inl ⟨hm, _, _, by decide, heq⟩)))
  · rcases body_cases hs hi ha hB with heq | hres | ⟨w, heq⟩ | hclose | hopen
    · exact .inl heq
    · exact .inr (.inr (.inl hres))
    · exact .inr (.inr (.inr (.inl ⟨hm, _, w, by decide, heq⟩)))
    · exact .inr (.inr (.inr (.inr (.inl ⟨hm, hclose⟩))))
    · exact .inr (.inr (.inr (.inr (.inr ⟨hm, hopen⟩))))

end Sys2Proof.Machine
end

section
/-! SUPPORT. The invariant `BlockInv` (10_state.md R25, R26; log 4) under each named write, command, interaction and
run. -/

namespace Sys2Proof.Machine

theorem blockInv_reset : BlockInv State.reset := by decide

/-- Reset gives the block the values of `State.reset`, and the invariant reads no other field. -/
theorem blockInv_hostReset (s : State) : BlockInv (hostReset s) := blockInv_reset

/-- CLR needs no invariant of the block before it (70_reset_and_hazards.md R182). -/
theorem blockInv_clear {s : State} (ht : InvTaken s) : BlockInv s.clear := by
  refine ⟨by simp, ?_, ht⟩
  simp [InvMode]

/-- Error entry keeps ACC and CNT (60_exceptions.md R155). -/
theorem blockInv_raise {s : State} {e : ErrorCode} {w : Word} (hs : BlockInv s) (he : e ≠ .noError) :
    BlockInv (s.raise e w) := by
  obtain ⟨hacc, hmode, htaken⟩ := hs
  have hcnt := cnt_le_seven hmode
  refine ⟨hacc, ?_, htaken⟩
  simp [InvMode, hcnt, he]

theorem blockInv_emit {s : State} {items : List Byte} (hs : BlockInv s) : BlockInv (s.emit items) := by
  obtain ⟨hacc, hmode, htaken⟩ := hs
  refine ⟨hacc, hmode, ?_⟩
  simp only [InvTaken, State.emit_taken, State.emit_out, List.length_append]
  omega

/-- Outside ERROR mode no error is recorded, which the end of a session leaves as it is. -/
theorem blockInv_closeSession {s : State} (hs : BlockInv s) (he : s.mode ≠ .error) : BlockInv s.closeSession := by
  obtain ⟨-, ⟨-, -, -, -, hnone⟩, htaken⟩ := hs
  refine ⟨by simp, ?_, htaken⟩
  simp [InvMode, hnone he]

/-- `ACC <- t mod 2^n; CNT <- n` gives INV_ACC whatever ACC and CNT were (10_state.md R25). -/
theorem blockInv_setResidue_setMode {s : State} {u : Acc} {n : Nat} {m : Mode} (hs : BlockInv s)
    (he : s.mode ≠ .error) (hn : FitsSession m n) : BlockInv ((s.setResidue u n).setMode m) := by
  obtain ⟨-, ⟨-, -, -, -, hnone⟩, htaken⟩ := hs
  have hcnt : (BitVec.ofNat 4 n).toNat = n := by
    rw [BitVec.toNat_ofNat]
    rcases hn with ⟨-, hn⟩ | ⟨-, hn⟩ <;> omega
  refine ⟨?_, ?_, htaken⟩
  · simp only [InvAcc, State.setMode_acc, State.setResidue_acc, State.setMode_cnt, State.setResidue_cnt, hcnt]
    exact newestBits_lt u n
  · rcases hn with ⟨rfl, hn⟩ | ⟨rfl, hn⟩
    · simpa [InvMode, hnone he] using by omega
    · simpa [InvMode, hnone he] using by omega

theorem exec_keeps_blockInv {i : Instr} {s t : State} (hs : BlockInv s) (h : exec i s = .next t) : BlockInv t := by
  have ⟨_, hmode, htaken⟩ := hs
  rcases exec_next_cases hmode h with rfl | rfl | ⟨r, rfl⟩ | ⟨-, e, w, he, rfl⟩ | ⟨hm, items, -, rfl⟩ |
    ⟨hm, items, u, n, m, -, hn, rfl⟩
  · exact hs
  · exact blockInv_clear htaken
  · exact hs
  · exact blockInv_raise hs he
  · exact blockInv_closeSession (blockInv_emit hs) hm
  · exact blockInv_setResidue_setMode (blockInv_emit hs) hm hn

theorem illegalCommand_keeps_blockInv {s : State} (w : Word) (hs : BlockInv s) : BlockInv (illegalCommand w s) := by
  rcases illegalCommand_cases w s with ⟨-, heq⟩ | ⟨-, heq⟩
  · rw [heq]
    exact hs
  · rw [heq]
    exact blockInv_raise hs (by decide)

/-- A take counts an item only where an untaken one is left. -/
theorem hostTake_keeps_blockInv {s : State} (hs : BlockInv s) : BlockInv (hostTake s) := by
  rcases hostTake_cases s with ⟨b, hb, heq⟩ | ⟨-, heq⟩
  · obtain ⟨hacc, hmode, -⟩ := hs
    obtain ⟨hlt, -⟩ := List.getElem?_eq_some_iff.1 hb
    exact heq ▸ ⟨hacc, hmode, hlt⟩
  · exact heq ▸ hs

theorem interact_keeps_blockInv {x : Interaction} {s t : State} (hs : BlockInv s) (h : interact x s = .next t) :
    BlockInv t := by
  rcases interact_next_cases h with ⟨w, i, -, -, hexec⟩ | ⟨w, r, -, -, rfl⟩ | ⟨i, -, rfl⟩ | ⟨-, rfl⟩ | ⟨-, rfl⟩
  · exact exec_keeps_blockInv hs hexec
  · exact illegalCommand_keeps_blockInv w hs
  · exact hs
  · exact hostTake_keeps_blockInv hs
  · exact blockInv_hostReset s

/-- The step lemma of the invariant: the interactions that wait are no part of it. -/
theorem step_keeps_blockInv {s t : State} (hs : BlockInv s) (h : step s = .next t) : BlockInv t := by
  rcases step_next_cases h with ⟨-, rfl⟩ | ⟨x, rest, -, hx⟩
  · exact hs
  · exact interact_keeps_blockInv (s := s.setPending rest) hs hx

/-- Every run from a state that meets the invariant ends in one that does. -/
theorem run_keeps_blockInv (xs : List Interaction) {s : State} (hs : BlockInv s) :
    ∃ t, run xs s = .next t ∧ BlockInv t :=
  steps_keep (fun _ _ => step_keeps_blockInv) xs.length (s.setPending xs) hs

/-- Under INV_MODE the mode says whether an error is recorded. -/
theorem mode_error_iff_ecode {s : State} (h : InvMode s) : s.mode = .error ↔ s.ecode ≠ .noError := by
  obtain ⟨-, -, -, herr, hnone⟩ := h
  refine ⟨fun hm => (herr hm).2, fun hcode => ?_⟩
  by_contra hm
  exact hcode (hnone hm).1

/-- A command appends at most two items to `out` (10_state.md R29, 70_reset_and_hazards.md R183). -/
theorem exec_out_append {i : Instr} {s t : State} (hs : InvMode s) (h : exec i s = .next t) :
    ∃ items, t.out = s.out ++ items ∧ items.length ≤ 2 := by
  rcases exec_next_cases hs h with rfl | rfl | ⟨r, rfl⟩ | ⟨-, e, w, -, rfl⟩ | ⟨-, items, hlen, rfl⟩ |
    ⟨-, items, u, n, m, hlen, -, rfl⟩
  · exact ⟨[], by simp⟩
  · exact ⟨[], by simp⟩
  · exact ⟨[], by simp⟩
  · exact ⟨[], by simp⟩
  · exact ⟨items, rfl, hlen⟩
  · exact ⟨items, rfl, hlen⟩

@[simp] theorem illegalCommand_out (w : Word) (s : State) : (illegalCommand w s).out = s.out := by
  rcases illegalCommand_cases w s with ⟨-, heq⟩ | ⟨-, heq⟩
  · rw [heq]
  · rw [heq, State.raise_out]

@[simp] theorem hostTake_out (s : State) : (hostTake s).out = s.out := by
  rcases hostTake_cases s with ⟨b, -, heq⟩ | ⟨-, heq⟩
  · rw [heq, State.respond_out, State.setTaken_out]
  · rw [heq, State.respond_out]

/-- An interaction appends at most two items to `out`, unless it is reset. -/
theorem interact_out_append {x : Interaction} {s t : State} (hs : InvMode s) (h : interact x s = .next t) :
    (∃ items, t.out = s.out ++ items ∧ items.length ≤ 2) ∨ (x = .assertReset ∧ t.out = []) := by
  rcases interact_next_cases h with ⟨w, i, -, -, hexec⟩ | ⟨w, r, -, -, rfl⟩ | ⟨i, -, rfl⟩ | ⟨-, rfl⟩ | ⟨hx, rfl⟩
  · exact .inl (exec_out_append hs hexec)
  · exact .inl ⟨[], by simp⟩
  · exact .inl ⟨[], by simp [hostRead]⟩
  · exact .inl ⟨[], by simp⟩
  · exact .inr ⟨hx, rfl⟩

end Sys2Proof.Machine
end

section
/-! The obligations of 10_state.md. -/

namespace Sys2Proof.Machine

/-- Settles O26: the case of each interaction keeps the invariant. -/
theorem stepKeepsInvariant : Obligations.StepKeepsInvariant :=
  fun _ _ => step_keeps_blockInv

/-- Settles O27: the invariant holds at reset and along the run, and implies the three clauses. -/
theorem everyRunFromResetIsConsistent : Obligations.EveryRunFromResetIsConsistent := by
  intro xs
  obtain ⟨t, ht, hacc, hmode, -⟩ := run_keeps_blockInv xs blockInv_reset
  exact ⟨t, ht, cnt_le_seven hmode, hacc, mode_error_iff_ecode hmode⟩

/-- Settles O29: the four outcomes of a command, the last one split by the command whose body ran. -/
theorem elementsChangeOnlyUnderTheirWriters : Obligations.ElementsChangeOnlyUnderTheirWriters := by
  intro i s
  obtain ⟨t, ht, h⟩ := exec_cases i s
  refine ⟨t, ht, ?_⟩
  rcases h with ⟨-, -, rfl⟩ | ⟨rfl, rfl⟩ | ⟨hm, -, rfl⟩ | ⟨hm, hclr, -, hB⟩
  · simp
  · simp
  · simp [hm]
  · cases i with
    | nop => cases hB; simp
    | clr => exact absurd rfl hclr
    | encByte d =>
      obtain ⟨items, n, heq, -⟩ := encByteBody_eq d s
      cases hB.trans heq
      simp
    | encEnd =>
      rcases encEndBody_cases s with ⟨-, heq⟩ | ⟨-, items, -, heq⟩
      · cases hB.trans heq
        simp
      · cases hB.trans heq
        simp
    | decSym c =>
      rcases hB with ⟨-, rfl⟩ | ⟨v, -, rfl⟩
      · simp [hm]
      · obtain ⟨items, n, heq, -⟩ := decSymBody_eq v s
        rw [heq]
        simp
    | decEnd => cases hB; simp
    | lutSym v => cases hB; simp
    | lutIdx c =>
      rcases hB with ⟨-, rfl⟩ | ⟨v, -, rfl⟩
      · simp [hm]
      · simp

/-- Settles O30: a step is one interaction, and of these only reset takes items away. -/
theorem outOnlyGrowsUntilReset : Obligations.OutOnlyGrowsUntilReset := by
  intro s t hs h
  obtain ⟨-, hmode, -⟩ := hs
  rcases step_next_cases h with ⟨-, rfl⟩ | ⟨x, rest, hp, hx⟩
  · exact .inl ⟨[], by simp⟩
  · rcases interact_out_append (s := s.setPending rest) hmode hx with hgrow | ⟨rfl, hout⟩
    · exact .inl hgrow
    · exact .inr ⟨⟨rest, hp⟩, hout⟩

/-- Settles O25. -/
theorem resetMeetsInvariant : Obligations.ResetMeetsInvariant := blockInv_reset

/-- Settles O33: the step performs the waiting reset, which writes the values of `State.reset`. -/
theorem resetSetsEveryElement : Obligations.ResetSetsEveryElement := by
  refine ⟨fun s rest hp => ⟨hostReset (s.setPending rest), step_of_pending s _ rest hp, ?_⟩, ?_⟩
  · exact ⟨rfl, rfl, rfl, rfl, rfl, rfl, rfl⟩
  · exact ⟨rfl, rfl, rfl, rfl, rfl, rfl, rfl⟩

end Sys2Proof.Machine
end

section
/-! SUPPORT. The block does not read what waits (log 1), so a run is one interaction after the other
(70_reset_and_hazards.md R190, R191). -/

namespace Sys2Proof.Machine

/-- The outcome of `f` is the same whatever waits, and `f` leaves what waits as it is. -/
def IgnoresQueue (f : State → Result) : Prop :=
  ∀ s t xs, f s = .next t → f (s.setPending xs) = .next (t.setPending xs)

/-- An operation that always answers ignores the queue where it commutes with a write of it. -/
theorem ignoresQueue_next {g : State → State} (hg : ∀ s xs, g (s.setPending xs) = (g s).setPending xs) :
    IgnoresQueue fun s => .next (g s) := by
  intro s t xs h
  cases h
  exact congrArg _ (hg s xs)

/-- In ERROR mode a command other than CLR has no effect (60_exceptions.md R156). -/
theorem perform_of_error {s : State} (i : Instr) (body : State → Result) (hm : s.mode = .error) :
    perform i s body = .next s :=
  if_pos hm

/-- A command its mode forbids enters ERROR mode (60_exceptions.md R153). -/
theorem perform_of_forbidden {i : Instr} {s : State} (body : State → Result) (hm : s.mode ≠ .error)
    (ha : allowed i s.mode = false) : perform i s body = .next (s.raise .sequenceError (encodeCmd i)) := by
  rw [perform, if_neg hm, ha, if_neg Bool.false_ne_true]

theorem perform_of_allowed {i : Instr} {s : State} (body : State → Result) (hm : s.mode ≠ .error)
    (ha : allowed i s.mode = true) : perform i s body = body s := by
  rw [perform, if_neg hm, if_pos ha]

/-- The command step's checks read MODE alone. -/
theorem perform_ignoresQueue (i : Instr) {body : State → Result} (hbody : IgnoresQueue body) :
    IgnoresQueue fun s => perform i s body := by
  intro s t xs h
  rcases perform_cases i s body with ⟨hm, hp⟩ | ⟨hm, ha, hp⟩ | ⟨hm, ha, hp⟩
  · cases hp.symm.trans h
    exact perform_of_error i body hm
  · cases hp.symm.trans h
    exact perform_of_forbidden (s := s.setPending xs) body hm ha
  · exact (perform_of_allowed (s := s.setPending xs) body hm ha).trans (hbody s t xs (hp.symm.trans h))

theorem decSymBody_setPending (v : Group) (s : State) (xs : List Interaction) :
    decSymBody v (s.setPending xs) = (decSymBody v s).setPending xs := by
  unfold decSymBody
  rw [apply_ite (State.setPending · xs)]
  rfl

theorem encEndBody_setPending (s : State) (xs : List Interaction) :
    encEndBody (s.setPending xs) = (encEndBody s).setPending xs := by
  unfold encEndBody
  rw [apply_ite (State.setPending · xs), apply_ite (State.setPending · xs)]
  rfl

theorem exec_ignoresQueue (i : Instr) : IgnoresQueue (exec i) := by
  cases i with
  | nop => exact perform_ignoresQueue _ (ignoresQueue_next fun _ _ => rfl)
  | clr => exact ignoresQueue_next fun _ _ => rfl
  | encByte d => exact perform_ignoresQueue _ (ignoresQueue_next fun _ _ => rfl)
  | encEnd => exact perform_ignoresQueue _ (ignoresQueue_next encEndBody_setPending)
  | decSym c =>
    refine perform_ignoresQueue _ ?_
    cases idx c with
    | none => exact ignoresQueue_next fun _ _ => rfl
    | some v => exact ignoresQueue_next (decSymBody_setPending v)
  | decEnd => exact perform_ignoresQueue _ (ignoresQueue_next fun _ _ => rfl)
  | lutSym v => exact perform_ignoresQueue _ (ignoresQueue_next fun _ _ => rfl)
  | lutIdx c =>
    refine perform_ignoresQueue _ ?_
    cases idx c with
    | none => exact ignoresQueue_next fun _ _ => rfl
    | some v => exact ignoresQueue_next fun _ _ => rfl

theorem illegalCommand_setPending (w : Word) (s : State) (xs : List Interaction) :
    illegalCommand w (s.setPending xs) = (illegalCommand w s).setPending xs := by
  unfold illegalCommand
  rw [apply_ite (State.setPending · xs)]
  rfl

theorem hostTake_setPending (s : State) (xs : List Interaction) :
    hostTake (s.setPending xs) = (hostTake s).setPending xs := by
  simp only [hostTake, State.setPending_out, State.setPending_taken]
  cases s.out[s.taken]? <;> rfl

theorem issueCommand_ignoresQueue (w : Word) : IgnoresQueue (issueCommand w) := by
  unfold issueCommand
  cases decodeCmd w with
  | ok i => exact exec_ignoresQueue i
  | error r => exact ignoresQueue_next (illegalCommand_setPending w)

theorem interact_ignoresQueue (x : Interaction) : IgnoresQueue (interact x) := by
  cases x with
  | command w => exact issueCommand_ignoresQueue w
  | readRegister i => exact ignoresQueue_next fun _ _ => rfl
  | takeItem => exact ignoresQueue_next hostTake_setPending
  | assertReset => exact ignoresQueue_next fun _ _ => rfl

theorem run_nil (s : State) : run [] s = .next (s.setPending []) := rfl

/-- What waited before a run is no part of it: `run` puts its own list in the queue. -/
@[simp] theorem run_setPending (xs ys : List Interaction) (s : State) : run xs (s.setPending ys) = run xs s := rfl

/-- The run of a list is its first interaction and then the run of the others. -/
theorem run_cons {x : Interaction} {s t : State} (xs : List Interaction) (h : interact x s = .next t) :
    run (x :: xs) s = run xs t := by
  have hstep : step (s.setPending (x :: xs)) = .next (t.setPending xs) :=
    (step_of_pending _ x xs rfl).trans (interact_ignoresQueue x s t xs h)
  rw [run, List.length_cons, steps, hstep]
  rfl

theorem run_completes (xs : List Interaction) (s : State) : Completes (run xs s) := by
  obtain ⟨t, ht, -⟩ := steps_keep (P := fun _ => True) (fun _ _ _ _ => trivial) xs.length (s.setPending xs) trivial
  exact ⟨t, ht⟩

/-- The run of two lists goes on from where the run of the first ended. -/
theorem run_append {xs : List Interaction} {s t : State} (ys : List Interaction) (h : run xs s = .next t) :
    run (xs ++ ys) s = run ys t := by
  induction xs generalizing s with
  | nil =>
    cases (run_nil s).symm.trans h
    rw [run_setPending, List.nil_append]
  | cons x xs ih =>
    obtain ⟨u, hu⟩ := interact_completes x s
    rw [run_cons xs hu] at h
    rw [List.cons_append, run_cons (xs ++ ys) hu, ih h]

end Sys2Proof.Machine
end

section
/-! SUPPORT. The table's word and the host registers, as numbers and as steps (20_memory.md R42 to R44, R53). -/

namespace Sys2Proof.Machine

theorem decodeTableWord_eq_some {nbits w : Nat} {i : Instr} :
    decodeTableWord nbits w = some i ↔ decodeCmd (tableWord nbits w) = .ok i := by
  unfold decodeTableWord
  cases decodeCmd (tableWord nbits w) <;> simp

/-- The next step issues the word the host put first, with the rest of the queue as it was. -/
theorem step_issueNext (s : State) (w : Word) : step (s.issueNext w) = issueCommand w s :=
  step_of_pending _ (.command w) s.pending rfl

theorem issueCommand_of_decode {w : Word} {i : Instr} (h : decodeCmd w = .ok i) (s : State) :
    issueCommand w s = exec i s := by
  unfold issueCommand
  rw [h]

@[simp] theorem State.readRegister_zero (s : State) : s.readRegister 0 = s.statusReg := rfl
@[simp] theorem State.readRegister_one (s : State) : s.readRegister 1 = s.accReg := rfl
@[simp] theorem State.readRegister_two (s : State) : s.readRegister 2 = s.resultReg := rfl
@[simp] theorem State.readRegister_three (s : State) : s.readRegister 3 = s.ecmdReg := rfl

theorem State.accReg_toNat (s : State) : s.accReg.toNat = s.acc.toNat :=
  BitVec.toNat_setWidth_of_le (by decide)

theorem State.resultReg_toNat (s : State) : s.resultReg.toNat = s.result.toNat :=
  BitVec.toNat_setWidth_of_le (by decide)

/-- The fields of STATUS at their places (20_memory.md R42). -/
theorem State.statusReg_toNat (s : State) :
    s.statusReg.toNat = s.ecode.code.toNat * 2 ^ 8 + s.cnt.toNat * 2 ^ 4 + s.mode.code.toNat := by
  have hcnt := s.cnt.isLt
  have hmode := s.mode.code.isLt
  simp only [statusReg, BitVec.toNat_append]
  rw [← Nat.shiftLeft_add_eq_or_of_lt hmode, ← Nat.shiftLeft_add_eq_or_of_lt (by decide),
    ← Nat.shiftLeft_add_eq_or_of_lt hcnt, ← Nat.shiftLeft_add_eq_or_of_lt s.ecode.code.isLt]
  simp only [Nat.shiftLeft_eq, BitVec.toNat_ofNat]
  omega

theorem ErrorCode.code_ne_zero {e : ErrorCode} (h : e ≠ .noError) : e.code.toNat ≠ 0 := by
  cases e with
  | noError => exact absurd rfl h
  | invalidSymbol => decide
  | illegalCommand => decide
  | sequenceError => decide

/-- What the host reads out of STATUS, by division: each field, and 0 between them. -/
theorem State.statusReg_fields (s : State) :
    s.statusReg.toNat / 2 ^ 11 = 0 ∧ s.statusReg.toNat / 2 ^ 8 % 8 = s.ecode.code.toNat ∧
    s.statusReg.toNat / 2 ^ 4 % 16 = s.cnt.toNat ∧ s.statusReg.toNat / 2 ^ 2 % 4 = 0 ∧
    s.statusReg.toNat % 4 = s.mode.code.toNat := by
  have hecode := s.ecode.code.isLt
  have hcnt := s.cnt.isLt
  have hmode := s.mode.code.isLt
  rw [s.statusReg_toNat]
  omega

end Sys2Proof.Machine
end

section
/-! The obligations of 20_memory.md. -/

namespace Sys2Proof.Machine

/-- Settles O32: both runs answer, and the run of the whole list goes on from where the first ended. -/
theorem runsAreSequential : Obligations.RunsAreSequential := by
  intro xs ys s
  obtain ⟨t, ht⟩ := run_completes xs s
  obtain ⟨u, hu⟩ := run_completes ys t
  exact ⟨t, u, ht, hu, (run_append ys ht).trans hu⟩

/-- Settles O5: the word is first in the queue and decodes to the command. -/
theorem tableWordIsTheNextCommand : Obligations.TableWordIsTheNextCommand := by
  intro nbits w i s h
  exact (step_issueNext s _).trans (issueCommand_of_decode (decodeTableWord_eq_some.1 h) s)

/-- Settles O36: the fields of STATUS, with ECODE and MODE by their codes. -/
theorem statusPacksItsFields : Obligations.StatusPacksItsFields := by
  refine ⟨fun s => ?_, rfl, fun s hs hm => ?_⟩
  · rw [State.readRegister_zero]
    obtain ⟨hhigh, hecode, hcnt, hgap, hmode⟩ := s.statusReg_fields
    refine ⟨hhigh, hecode.trans ?_, hcnt, hgap, hmode.trans ?_⟩
    · cases s.ecode <;> rfl
    · cases s.mode <;> rfl
  · obtain ⟨-, ⟨-, -, -, herr, -⟩, -⟩ := hs
    obtain ⟨-, hecode, -, -, hmode⟩ := s.statusReg_fields
    obtain ⟨-, hne⟩ := herr hm
    rw [State.readRegister_zero]
    rw [hm] at hmode
    exact ⟨hmode, hecode.symm ▸ ErrorCode.code_ne_zero hne⟩

/-- Settles O37: the two narrower registers by the value of their zero extension. -/
theorem otherRegistersZeroExtend : Obligations.OtherRegistersZeroExtend := by
  intro s
  rw [State.readRegister_one, State.readRegister_two, State.readRegister_three]
  exact ⟨s.accReg_toNat, s.resultReg_toNat, rfl⟩

/-- Settles O38: the waiting read is performed as `hostRead`, which records the value and writes nothing else. -/
theorem registerReadHasNoSideEffect : Obligations.RegisterReadHasNoSideEffect :=
  fun s i rest hp => step_of_pending s (.readRegister i) rest hp

end Sys2Proof.Machine
end

section
/-! SUPPORT. Command words by their fields, and what the decoder can answer for a word (30_encoding.md R60 to R66). -/

namespace Sys2Proof

/-- The word of a command as the number of its pattern (30_encoding.md R61). -/
theorem encodeCmd_toNat (i : Instr) : (encodeCmd i).toNat = match i with
    | .nop => 0x0000
    | .clr => 0x1000
    | .encByte d => 0x2000 + d.toNat
    | .encEnd => 0x3000
    | .decSym c => 0x4000 + c.toNat
    | .decEnd => 0x5000
    | .lutSym v => 0x6000 + v.toNat
    | .lutIdx c => 0x7000 + c.toNat := by
  cases i with
  | nop => rfl
  | clr => rfl
  | encByte d => exact append_byte_toNat _ d
  | encEnd => rfl
  | decSym c => exact append_byte_toNat _ c
  | decEnd => rfl
  | lutSym v =>
    simp only [encodeCmd, BitVec.toNat_append]
    rw [← Nat.shiftLeft_add_eq_or_of_lt v.isLt]
    rfl
  | lutIdx c => exact append_byte_toNat _ c

/-- A word is its three fields (30_encoding.md R60). -/
theorem toNat_eq_fields (w : Word) :
    w.toNat = 0x1000 * (opField w).toNat + 0x100 * (rsvField w).toNat + (opdField w).toNat := by
  rw [opField_toNat, rsvField_toNat, opdField_toNat]
  omega

/-- The operand of LUT_SYM and the three bits above it. -/
theorem opdField_toNat_eq (w : Word) : (opdField w).toNat = 0x20 * (highOpd w).toNat + (groupField w).toNat := by
  rw [opdField_toNat, highOpd_toNat, groupField_toNat]
  omega

/-- The four clauses of the legality predicate on the fields (30_encoding.md R63). -/
theorem legal_iff_fields (w : Word) : legal w = true ↔
    (opField w).toNat ≤ 7 ∧ rsvField w = 0 ∧
    ((opField w).toNat ∈ [0x0, 0x1, 0x3, 0x5] → opdField w = 0) ∧
    ((opField w).toNat = 0x6 → highOpd w = 0) := by
  simp [legal, BitVec.le_def, ← BitVec.toNat_inj, imp_iff_not_or, and_assoc]

/-- The legality predicate on the number of a word. -/
theorem legal_iff_toNat (w : Word) : legal w = true ↔
    w.toNat / 0x1000 ≤ 7 ∧ w.toNat / 0x100 % 0x10 = 0 ∧
    (w.toNat / 0x1000 ∈ [0x0, 0x1, 0x3, 0x5] → w.toNat % 0x100 = 0) ∧
    (w.toNat / 0x1000 = 0x6 → w.toNat / 0x20 % 8 = 0) := by
  rw [legal_iff_fields, ← BitVec.toNat_inj, ← BitVec.toNat_inj, ← BitVec.toNat_inj, opField_toNat, rsvField_toNat,
    opdField_toNat, highOpd_toNat]
  rfl

end Sys2Proof
end

section
/-! SUPPORT. What the decoder answers: the command whose word it is, or, for an illegal word, no command
(30_encoding.md R63, R66). -/

namespace Sys2Proof

theorem opField_append (hi lo : Byte) : opField (hi ++ lo) = hi.extractLsb' 4 4 :=
  BitVec.extractLsb'_append_eq_of_le (by decide)

theorem rsvField_append (hi lo : Byte) : rsvField (hi ++ lo) = hi.extractLsb' 0 4 :=
  BitVec.extractLsb'_append_eq_of_le (by decide)

theorem opdField_append (hi lo : Byte) : opdField (hi ++ lo) = lo :=
  BitVec.extractLsb'_append_eq_right

/-- The operand of LUT_SYM comes back, and the eleven bits above it are those of its pattern. -/
theorem fields_lutSym (v : Group) :
    opField (encodeCmd (.lutSym v)) = 6 ∧ rsvField (encodeCmd (.lutSym v)) = 0 ∧
    highOpd (encodeCmd (.lutSym v)) = 0 ∧ groupField (encodeCmd (.lutSym v)) = v :=
  ⟨BitVec.extractLsb'_append_eq_of_le (by decide), BitVec.extractLsb'_append_eq_of_le (by decide),
    BitVec.extractLsb'_append_eq_of_le (by decide), BitVec.extractLsb'_append_eq_right⟩

/-- The decoder reads back every command the encoder writes (30_encoding.md R66). -/
@[simp] theorem decodeCmd_encodeCmd (i : Instr) : decodeCmd (encodeCmd i) = .ok i := by
  cases i with
  | nop => rfl
  | clr => rfl
  | encByte d => simp [decodeCmd, encodeCmd, opField_append, rsvField_append, opdField_append]
  | encEnd => rfl
  | decSym c => simp [decodeCmd, encodeCmd, opField_append, rsvField_append, opdField_append]
  | decEnd => rfl
  | lutSym v =>
    obtain ⟨hop, hrsv, hhigh, hgroup⟩ := fields_lutSym v
    simp [decodeCmd, hop, hrsv, hhigh, hgroup]
  | lutIdx c => simp [decodeCmd, encodeCmd, opField_append, rsvField_append, opdField_append]

theorem encodeCmd_injective : Function.Injective encodeCmd := by
  intro i j h
  have hij := decodeCmd_encodeCmd i
  rw [h, decodeCmd_encodeCmd] at hij
  exact (Except.ok.inj hij).symm

theorem legal_encodeCmd (i : Instr) : legal (encodeCmd i) = true := by
  cases i with
  | nop => exact Laws.LegalWord.nop
  | clr => exact Laws.LegalWord.clr
  | encByte d => exact Laws.LegalWord.encByte d
  | encEnd => exact Laws.LegalWord.encEnd
  | decSym c => exact Laws.LegalWord.decSym c
  | decEnd => exact Laws.LegalWord.decEnd
  | lutSym v => exact Laws.LegalWord.lutSym v
  | lutIdx c => exact Laws.LegalWord.lutIdx c

/-- An answer of the decoder that fits the word: the command that spells it, or an error for an illegal word. -/
def FitsWord (w : Word) (r : Except IllegalReason Instr) : Prop :=
  (∃ i, r = .ok i ∧ encodeCmd i = w) ∨ ((∃ e, r = .error e) ∧ legal w = false)

theorem fitsWord_ok {w : Word} {i : Instr} (h : (encodeCmd i).toNat = w.toNat) : FitsWord w (.ok i) :=
  .inl ⟨i, rfl, BitVec.eq_of_toNat_eq h⟩

theorem fitsWord_error {w : Word} (e : IllegalReason) (h : ¬legal w = true) : FitsWord w (.error e) :=
  .inr ⟨⟨e, rfl⟩, Bool.eq_false_iff.2 h⟩

/-- A command without operand, for the word of its opcode. -/
theorem fitsWord_decodeBare {w : Word} {i : Instr} (hrsv : (rsvField w).toNat = 0)
    (hop : (opField w).toNat ∈ [0x0, 0x1, 0x3, 0x5]) (hi : (encodeCmd i).toNat = 0x1000 * (opField w).toNat) :
    FitsWord w (decodeBare w i) := by
  unfold decodeBare
  split
  next hopd =>
    refine fitsWord_ok ?_
    rw [hi, toNat_eq_fields, hrsv, hopd]
    rfl
  next hopd =>
    refine fitsWord_error _ fun hl => ?_
    obtain ⟨-, -, hbare, -⟩ := (legal_iff_fields w).1 hl
    exact hopd (hbare hop)

/-- The decoder's answer fits its word: one case for each opcode (30_encoding.md R63, R66). -/
theorem decodeCmd_fits (w : Word) : FitsWord w (decodeCmd w) := by
  have hw := toNat_eq_fields w
  unfold decodeCmd
  split
  next h8 =>
    refine fitsWord_error _ fun hl => ?_
    obtain ⟨h7, -, -, -⟩ := (legal_iff_fields w).1 hl
    omega
  split
  next hrsv =>
    refine fitsWord_error _ fun hl => ?_
    obtain ⟨-, hzero, -, -⟩ := (legal_iff_fields w).1 hl
    exact hrsv hzero
  next h8 hrsv =>
    have hrsv : (rsvField w).toNat = 0 := by rw [not_not.1 hrsv]; rfl
    split
    next hop => exact fitsWord_decodeBare hrsv (by simp [hop]) (by rw [hop]; rfl)
    next hop => exact fitsWord_decodeBare hrsv (by simp [hop]) (by rw [hop]; rfl)
    next hop => exact fitsWord_ok (by rw [encodeCmd_toNat, hw, hop, hrsv])
    next hop => exact fitsWord_decodeBare hrsv (by simp [hop]) (by rw [hop]; rfl)
    next hop => exact fitsWord_ok (by rw [encodeCmd_toNat, hw, hop, hrsv])
    next hop => exact fitsWord_decodeBare hrsv (by simp [hop]) (by rw [hop]; rfl)
    next hop =>
      split
      next hhigh => exact fitsWord_ok (by rw [encodeCmd_toNat, hw, hop, hrsv, opdField_toNat_eq, hhigh]; simp)
      next hhigh =>
        refine fitsWord_error _ fun hl => ?_
        obtain ⟨-, -, -, hzero⟩ := (legal_iff_fields w).1 hl
        exact hhigh (hzero hop)
    next h0 h1 h2 h3 h4 h5 h6 =>
      have hop : (opField w).toNat = 7 := by grind
      exact fitsWord_ok (by rw [encodeCmd_toNat, hw, hop, hrsv])

/-- A word decodes to a command exactly when it is the command's word. -/
theorem decodeCmd_eq_ok_iff {w : Word} {i : Instr} : decodeCmd w = .ok i ↔ encodeCmd i = w := by
  refine ⟨fun h => ?_, fun h => h ▸ decodeCmd_encodeCmd i⟩
  rcases decodeCmd_fits w with ⟨j, hj, hw⟩ | ⟨⟨e, he⟩, -⟩
  · rw [h] at hj
    exact Except.ok.inj hj ▸ hw
  · rw [h] at he
    cases he

/-- The legal words are the words of the commands. -/
theorem legal_iff_exists_encodeCmd (w : Word) : legal w = true ↔ ∃ i, encodeCmd i = w := by
  refine ⟨fun h => ?_, fun ⟨i, hi⟩ => hi ▸ legal_encodeCmd i⟩
  rcases decodeCmd_fits w with ⟨i, -, hi⟩ | ⟨-, hf⟩
  · exact ⟨i, hi⟩
  · rw [h] at hf
    cases hf

end Sys2Proof
end

section
/-! SUPPORT. The commands row by row of the opcode map, and their words (30_encoding.md R61, R63). -/

namespace Sys2Proof

/-- Every command, listed under its mnemonic. -/
def commandsByRow : List (String × List Instr) :=
  [("NOP", [.nop]), ("CLR", [.clr]), ("ENC_BYTE", (FinEnum.toList Byte).map .encByte), ("ENC_END", [.encEnd]),
    ("DEC_SYM", (FinEnum.toList Byte).map .decSym), ("DEC_END", [.decEnd]),
    ("LUT_SYM", (FinEnum.toList Group).map .lutSym), ("LUT_IDX", (FinEnum.toList Byte).map .lutIdx)]

theorem length_toList_bitVec (n : Nat) : (FinEnum.toList (BitVec n)).length = 2 ^ n := by
  simp [FinEnum.toList]

theorem nodup_of_mem_commandsByRow : ∀ r ∈ commandsByRow, r.2.Nodup := by
  have hmap (n : Nat) {f : BitVec n → Instr} (hf : Function.Injective f) : ((FinEnum.toList (BitVec n)).map f).Nodup :=
    FinEnum.nodup_toList.map hf
  simp only [commandsByRow, List.forall_mem_cons]
  exact ⟨List.nodup_singleton _, List.nodup_singleton _, hmap 8 fun _ _ => Instr.encByte.inj, List.nodup_singleton _,
    hmap 8 fun _ _ => Instr.decSym.inj, List.nodup_singleton _, hmap 5 fun _ _ => Instr.lutSym.inj,
    hmap 8 fun _ _ => Instr.lutIdx.inj, nofun⟩

/-- A row lists exactly the commands with its mnemonic. -/
theorem mem_row_iff_mnemonic (i : Instr) : ∀ r ∈ commandsByRow, i ∈ r.2 ↔ i.mnemonic = r.1 := by
  cases i <;> simp [commandsByRow, Instr.mnemonic]

/-- Every command has a row. -/
theorem exists_row (i : Instr) : ∃ r ∈ commandsByRow, i ∈ r.2 := by
  cases i <;> simp [commandsByRow]

theorem commandsByRow_pairwise_ne : commandsByRow.Pairwise fun r r' => r.1 ≠ r'.1 := by
  simp [commandsByRow]

/-- Every command once. -/
def allCommands : List Instr := commandsByRow.flatMap Prod.snd

theorem mem_allCommands (i : Instr) : i ∈ allCommands := List.mem_flatMap.2 (exists_row i)

theorem nodup_allCommands : allCommands.Nodup := by
  refine List.nodup_flatMap.2 ⟨nodup_of_mem_commandsByRow, commandsByRow_pairwise_ne.imp_of_mem ?_⟩
  intro r r' hr hr' hne i hi hi'
  exact hne (((mem_row_iff_mnemonic i r hr).1 hi).symm.trans ((mem_row_iff_mnemonic i r' hr').1 hi'))

theorem length_allCommands : allCommands.length = 804 := by
  simp [allCommands, commandsByRow, length_toList_bitVec]

/-- The words of a list of different commands are as many different words. -/
theorem exists_words_of_commands {is : List Instr} (h : is.Nodup) :
    ∃ ws : List Word, ws.Nodup ∧ ws.length = is.length ∧ ∀ w, w ∈ ws ↔ ∃ i, i ∈ is ∧ encodeCmd i = w :=
  ⟨is.map encodeCmd, h.map encodeCmd_injective, List.length_map .., fun _ => List.mem_map⟩

end Sys2Proof
end

section
/-! SUPPORT. The rows of the opcode map as patterns above an operand (30_encoding.md R61). -/

namespace Sys2Proof

/-- A mask of the high bits leaves a pattern exactly for the words with that pattern above. -/
theorem and_mask_eq_iff {m n : Nat} (hi : BitVec m) (w : BitVec (m + n)) :
    w &&& (BitVec.allOnes m ++ 0#n) = hi ++ 0#n ↔ ∃ lo : BitVec n, hi ++ lo = w := by
  constructor
  · intro h
    rw [← BitVec.extractLsb'_append_extractLsb' (x := w), BitVec.and_append, BitVec.and_allOnes, BitVec.and_zero,
      BitVec.append_left_inj] at h
    exact ⟨_, h ▸ BitVec.extractLsb'_append_extractLsb'⟩
  · rintro ⟨lo, rfl⟩
    rw [BitVec.and_append, BitVec.and_allOnes, BitVec.and_zero]

/-- A row without operand has the command's word as its only word. -/
theorem hits_full_mask_iff (m : String) (p w : Word) : OpcodeRow.hits ⟨m, p, 0xFFFF⟩ w = true ↔ p = w :=
  beq_iff_eq.trans (by rw [show (0xFFFF : Word) = BitVec.allOnes 16 from rfl, BitVec.and_allOnes, eq_comm])

/-- A row with an 8-bit operand has the words with its opcode above any operand. -/
theorem hits_byte_mask_iff (m : String) (hi : Byte) (w : Word) :
    OpcodeRow.hits ⟨m, hi ++ 0x00#8, 0xFF00⟩ w = true ↔ ∃ lo : Byte, hi ++ lo = w :=
  beq_iff_eq.trans (and_mask_eq_iff (n := 8) hi w)

/-- The row with a 5-bit operand has the words with its pattern above any operand. -/
theorem hits_group_mask_iff (m : String) (hi : BitVec 11) (w : Word) :
    OpcodeRow.hits ⟨m, hi ++ 0b00000#5, 0xFFE0⟩ w = true ↔ ∃ lo : Group, hi ++ lo = w :=
  beq_iff_eq.trans (and_mask_eq_iff (n := 5) hi w)

section

variable {r : OpcodeRow} {w : Word}

/-- A row that has the word of its one command has the words of all commands with its mnemonic. -/
theorem hits_iff_of_bare_row {i : Instr} (hr : (r.mnemonic, [i]) ∈ commandsByRow)
    (h : r.hits w = true ↔ encodeCmd i = w) :
    r.hits w = true ↔ ∃ j, j.mnemonic = r.mnemonic ∧ encodeCmd j = w := by
  simp only [h, ← mem_row_iff_mnemonic _ _ hr, List.mem_singleton, exists_eq_left]

/-- A row that has the words of its command with every operand has the words of all commands with its mnemonic. -/
theorem hits_iff_of_operand_row {n : Nat} {f : BitVec n → Instr}
    (hr : (r.mnemonic, (FinEnum.toList (BitVec n)).map f) ∈ commandsByRow)
    (h : r.hits w = true ↔ ∃ x, encodeCmd (f x) = w) :
    r.hits w = true ↔ ∃ j, j.mnemonic = r.mnemonic ∧ encodeCmd j = w := by
  simp only [h, ← mem_row_iff_mnemonic _ _ hr, List.mem_map, FinEnum.mem_toList, true_and, exists_exists_eq_and]

end

/-- A word has the fixed bits of a row exactly when it is the word of a command with the row's mnemonic. -/
theorem hits_iff_exists_encodeCmd (w : Word) :
    ∀ r ∈ opcodeMap, r.hits w = true ↔ ∃ i, i.mnemonic = r.mnemonic ∧ encodeCmd i = w := by
  simp only [opcodeMap, List.forall_mem_cons]
  exact ⟨hits_iff_of_bare_row (i := .nop) (by simp [commandsByRow]) (hits_full_mask_iff ..),
    hits_iff_of_bare_row (i := .clr) (by simp [commandsByRow]) (hits_full_mask_iff ..),
    hits_iff_of_operand_row (f := .encByte) (by simp [commandsByRow]) (hits_byte_mask_iff _ 0x20 w),
    hits_iff_of_bare_row (i := .encEnd) (by simp [commandsByRow]) (hits_full_mask_iff ..),
    hits_iff_of_operand_row (f := .decSym) (by simp [commandsByRow]) (hits_byte_mask_iff _ 0x40 w),
    hits_iff_of_bare_row (i := .decEnd) (by simp [commandsByRow]) (hits_full_mask_iff ..),
    hits_iff_of_operand_row (f := .lutSym) (by simp [commandsByRow]) (hits_group_mask_iff _ 0b01100000000 w),
    hits_iff_of_operand_row (f := .lutIdx) (by simp [commandsByRow]) (hits_byte_mask_iff _ 0x70 w), nofun⟩

/-- The opcode map has one row of each mnemonic. -/
theorem filter_opcodeMap_mnemonic (i : Instr) :
    (opcodeMap.filter fun r => i.mnemonic = r.mnemonic).map OpcodeRow.mnemonic = [i.mnemonic] := by
  cases i <;> simp [opcodeMap, Instr.mnemonic]

end Sys2Proof
end

section
/-! SUPPORT. `LUT` and `IDX` undo each other (40_alphabet_lut.md R83, R84). -/

namespace Sys2Proof.Machine

/-- The table in closed form: letters, then digits (40_alphabet_lut.md R80). -/
theorem lut_toNat (v : Group) : (lut v).toNat = if v.toNat < 26 then 0x61 + v.toNat else 0x32 + (v.toNat - 26) := by
  revert v
  decide

theorem idx_eq_some_iff {c : Byte} {v : Group} : idx c = some v ↔ lut v = c := by
  have hv := v.isLt
  rw [← BitVec.toNat_inj, lut_toNat]
  unfold idx
  split
  · rw [Option.some_inj, ← BitVec.toNat_inj, BitVec.toNat_ofNat]
    split <;> omega
  · split
    · rw [Option.some_inj, ← BitVec.toNat_inj, BitVec.toNat_ofNat]
      split <;> omega
    · refine iff_of_false nofun ?_
      split <;> omega

@[simp] theorem idx_lut (v : Group) : idx (lut v) = some v := idx_eq_some_iff.2 rfl

end Sys2Proof.Machine
end

section
/-! SUPPORT. The assembler's operands (30_encoding.md R67, R68). -/

namespace Sys2Proof.Machine.Asm

theorem imm8_map {α : Type} (f : Byte → α) (n : Nat) :
    (imm8 n).map f = if n ≤ 255 then some (f (BitVec.ofNat 8 n)) else none := by
  simp [imm8, Nat.lt_succ_iff]

theorem imm5_map {α : Type} (f : Group → α) (n : Nat) :
    (imm5 n).map f = if n ≤ 31 then some (f (BitVec.ofNat 5 n)) else none := by
  simp [imm5, Nat.lt_succ_iff]

theorem imm8_eq_some_iff {n : Nat} {b : Byte} : imm8 n = some b ↔ b.toNat = n := by
  have hb := b.isLt
  simp only [imm8, Option.ite_none_right_eq_some, Option.some_inj, ← BitVec.toNat_inj, BitVec.toNat_ofNat]
  omega

@[simp] theorem imm8_toNat (b : Byte) : imm8 b.toNat = some b := imm8_eq_some_iff.2 rfl

/-- Every code unit is the code point of a character. -/
theorem toNat_ofNat_byte (b : Byte) : (Char.ofNat b.toNat).toNat = b.toNat := by
  rw [Char.toNat_ofNat, if_pos (.inl (b.isLt.trans (by decide)))]

@[simp] theorem symbolChar_lut (v : Group) : symbolChar (Char.ofNat (lut v).toNat) = some (lut v) := by
  simp [symbolChar, toNat_ofNat_byte]

/-- A character that is none of the alphabet's is refused. -/
theorem symbolChar_eq_none {c : Char} (h : ∀ v, c.toNat ≠ (lut v).toNat) : symbolChar c = none := by
  unfold symbolChar
  cases hb : imm8 c.toNat with
  | none => rfl
  | some b =>
    have hidx : idx b = none := by
      refine Option.eq_none_iff_forall_ne_some.2 fun v hv => h v ?_
      rw [idx_eq_some_iff.1 hv, imm8_eq_some_iff.1 hb]
    simp [hidx]

/-- Operands that are all in range are all taken. -/
theorem mapM_eq_some_map {α β : Type} {f : α → Option β} {g : α → β} {xs : List α} (h : ∀ x ∈ xs, f x = some (g x)) :
    xs.mapM f = some (xs.map g) := by
  induction xs with
  | nil => rfl
  | cons x xs ih =>
    rw [List.forall_mem_cons] at h
    obtain ⟨hx, hxs⟩ := h
    simp [hx, ih hxs]

end Sys2Proof.Machine.Asm
end

section
/-! The obligations of 30_encoding.md. -/

namespace Sys2Proof.Machine

/-- Settles O1: the decoder's answer fits its word, and the encoder's word decodes to its command. -/
theorem decoderAndEncoderAreInverse : Obligations.DecoderAndEncoderAreInverse := by
  refine ⟨decodeCmd_encodeCmd, fun w i => decodeCmd_eq_ok_iff.1, fun w => ?_, encodeCmd_toNat⟩
  simp only [legal_iff_exists_encodeCmd, decodeCmd_eq_ok_iff]

/-- Settles O2: the legal words are the words of the commands, which are listed row by row. -/
theorem legalWordsAreCounted : Obligations.LegalWordsAreCounted := by
  refine ⟨legal_iff_toNat, ?_, ?_⟩
  · obtain ⟨ws, hnodup, hlength, hmem⟩ := exists_words_of_commands nodup_allCommands
    refine ⟨ws, hnodup, hlength.trans length_allCommands, fun w => ?_⟩
    simp only [hmem, mem_allCommands, true_and, legal_iff_exists_encodeCmd]
  · have hcounts : [("NOP", 1), ("CLR", 1), ("ENC_BYTE", 256), ("ENC_END", 1), ("DEC_SYM", 256), ("DEC_END", 1),
        ("LUT_SYM", 32), ("LUT_IDX", 256)] = commandsByRow.map fun row => (row.1, row.2.length) := by
      simp [commandsByRow, length_toList_bitVec]
    rw [hcounts, List.forall_mem_map]
    intro row hrow
    obtain ⟨ws, hnodup, hlength, hmem⟩ := exists_words_of_commands (nodup_of_mem_commandsByRow row hrow)
    refine ⟨ws, hnodup, hlength, fun w => ?_⟩
    simp only [hmem, mem_row_iff_mnemonic _ row hrow, decodeCmd_eq_ok_iff, and_comm]

/-- Settles O3: a row has exactly the words of its commands, and each mnemonic has one row. -/
theorem oneOpcodeRowPerLegalWord : Obligations.OneOpcodeRowPerLegalWord := by
  intro w
  have hhits := hits_iff_exists_encodeCmd w
  cases hw : decodeCmd w with
  | ok i =>
    refine Eq.trans (congrArg _ (List.filter_congr fun r hr => ?_)) (filter_opcodeMap_mnemonic i)
    rw [Bool.eq_iff_iff, hhits r hr, decide_eq_true_iff, ← decodeCmd_eq_ok_iff.1 hw]
    simp only [encodeCmd_injective.eq_iff, exists_eq_right]
  | error e =>
    refine List.map_eq_nil_iff.2 (List.filter_eq_nil_iff.2 fun r hr hhit => ?_)
    obtain ⟨i, -, hi⟩ := (hhits r hr).1 hhit
    rw [← hi, decodeCmd_encodeCmd] at hw
    cases hw

/-- Settles O53: each operand of the list is in range, so the list of operands is taken as it is. -/
theorem pseudoInstructionsExpand : Obligations.PseudoInstructionsExpand := by
  refine ⟨fun b => ?_, fun cs hcs => ?_, fun vs => ?_, rfl, rfl⟩
  · have hb : (b.map BitVec.toNat).mapM Asm.imm8 = some b := by
      rw [List.mapM_map]
      exact (Asm.mapM_eq_some_map fun d _ => Asm.imm8_toNat d).trans (congrArg some b.map_id)
    simp only [Asm.expand, hb, Option.map_some, encSession, encBytes]
  · have hcs : cs.mapM Asm.textChar = some (cs.map fun c => BitVec.ofNat 8 c.toNat) :=
      Asm.mapM_eq_some_map fun c hc => if_pos (hcs c hc)
    simp only [Asm.expand, hcs, Option.map_some, encSession, encBytes]
  · have hvs : (vs.map fun v => Char.ofNat (lut v).toNat).mapM Asm.symbolChar = some (vs.map lut) := by
      rw [List.mapM_map]
      exact Asm.mapM_eq_some_map fun v _ => Asm.symbolChar_lut v
    simp only [Asm.expand, hvs, Option.map_some, decSession, decSyms]

/-- Settles O4: a legal word is the word of its command. -/
theorem specWordsDecode : Obligations.SpecWordsDecode :=
  ⟨decodeCmd_encodeCmd .nop, decodeCmd_encodeCmd .clr, decodeCmd_encodeCmd (.encByte 0xA5),
    decodeCmd_encodeCmd .encEnd, decodeCmd_encodeCmd (.decSym 0x6D), decodeCmd_encodeCmd .decEnd,
    decodeCmd_encodeCmd (.lutSym 0b10110), decodeCmd_encodeCmd (.lutIdx 0x37), rfl, rfl, rfl, rfl⟩

/-- Settles O54: the range of a number is the range of its operand's type, and a literal is taken by `IDX`. -/
theorem assemblerChecksOperandRanges : Obligations.AssemblerChecksOperandRanges := by
  refine ⟨Asm.imm8_map _, Asm.imm8_map _, Asm.imm8_map _, Asm.imm5_map _, fun v => ?_, fun v => ?_, fun c hc => ?_⟩
  · exact congrArg (Option.map fun c => [Instr.decSym c]) (Asm.symbolChar_lut v)
  · exact congrArg (Option.map fun c => [Instr.lutIdx c]) (Asm.symbolChar_lut v)
  · have hnone := Asm.symbolChar_eq_none hc
    exact ⟨congrArg (Option.map fun c => [Instr.decSym c]) hnone,
      congrArg (Option.map fun c => [Instr.lutIdx c]) hnone⟩

end Sys2Proof.Machine
end

section
/-! SUPPORT. The symbol table and its inverse in closed form, and the code units that are no symbols
(40_alphabet_lut.md R80 to R84). -/

namespace Sys2Proof.Machine

theorem lut_injective : Function.Injective lut := by
  intro v v' h
  have hv : some v = some v' := by rw [← idx_lut v, h, idx_lut]
  exact Option.some_inj.1 hv

/-- The table as R80 writes it, a digit's code unit being 0x18 above its index. -/
theorem lut_eq_ofNat (v : Group) :
    lut v = BitVec.ofNat 8 (if v.toNat ≤ 25 then 0x61 + v.toNat else 0x18 + v.toNat) := by
  have hv := v.isLt
  apply BitVec.eq_of_toNat_eq
  rw [lut_toNat, BitVec.toNat_ofNat]
  by_cases hletter : v.toNat ≤ 25
  · rw [if_pos (by omega), if_pos hletter]
    omega
  · rw [if_neg (by omega), if_neg hletter]
    omega

theorem idx_of_letter {c : Byte} (h : 0x61 ≤ c.toNat ∧ c.toNat ≤ 0x7A) :
    idx c = some (BitVec.ofNat 5 (c.toNat - 0x61)) :=
  if_pos h

theorem idx_of_digit {c : Byte} (h : 0x32 ≤ c.toNat ∧ c.toNat ≤ 0x37) :
    idx c = some (BitVec.ofNat 5 (c.toNat - 0x32 + 26)) := by
  rw [idx, if_neg (by omega), if_pos h]

theorem idx_eq_none_iff {c : Byte} :
    idx c = none ↔ ¬((0x61 ≤ c.toNat ∧ c.toNat ≤ 0x7A) ∨ (0x32 ≤ c.toNat ∧ c.toNat ≤ 0x37)) := by
  constructor
  · rintro hnone (hletter | hdigit)
    · cases hnone.symm.trans (idx_of_letter hletter)
    · cases hnone.symm.trans (idx_of_digit hdigit)
  · intro h
    rw [not_or] at h
    obtain ⟨hletter, hdigit⟩ := h
    rw [idx, if_neg hletter, if_neg hdigit]

/-- The code units without an index are those that no index has as its symbol. -/
theorem idx_eq_none_iff_forall_lut_ne {c : Byte} : idx c = none ↔ ∀ v, lut v ≠ c := by
  simp only [Option.eq_none_iff_forall_ne_some, ne_eq, idx_eq_some_iff]

theorem fintypeCard_bitVec (n : Nat) : Fintype.card (BitVec n) = 2 ^ n :=
  FinEnum.card_eq_fintypeCard.symm

/-- The 32 symbols of the table. -/
def symbols : Finset Byte := Finset.univ.image lut

theorem mem_symbols_compl {c : Byte} : c ∈ symbolsᶜ ↔ idx c = none := by
  simp [symbols, idx_eq_none_iff_forall_lut_ne]

theorem card_symbols : symbols.card = 32 :=
  (Finset.card_image_of_injective _ lut_injective).trans (fintypeCard_bitVec 5)

theorem card_symbols_compl : symbolsᶜ.card = 224 := by
  rw [Finset.card_compl, card_symbols, fintypeCard_bitVec]
  rfl

@[simp] theorem groupToByte_toNat (v : Group) : (groupToByte v).toNat = v.toNat :=
  BitVec.toNat_setWidth_of_le (by decide)

/-- `zext_8` of an index that is computed in numbers. -/
theorem groupToByte_ofNat {n : Nat} (h : n < 32) : groupToByte (BitVec.ofNat 5 n) = BitVec.ofNat 8 n := by
  apply BitVec.eq_of_toNat_eq
  rw [groupToByte_toNat, BitVec.toNat_ofNat, BitVec.toNat_ofNat]
  omega

/-- The low five bits of `zext_8(v)` are `v`. -/
@[simp] theorem setWidth_groupToByte (v : Group) : (groupToByte v).setWidth 5 = v :=
  (BitVec.setWidth_setWidth_of_le v (by decide)).trans (BitVec.setWidth_eq v)

end Sys2Proof.Machine
end

section
/-! SUPPORT. The command step by mode: a command in ERROR, forbidden or allowed, and an illegal word (60_exceptions.md
R154). -/

namespace Sys2Proof.Machine

section

variable {i : Instr} {s : State}

theorem exec_of_error (hi : i ≠ .clr) (hm : s.mode = .error) : exec i s = .next s := by
  obtain ⟨t, ht, ⟨-, -, rfl⟩ | ⟨hclr, -⟩ | ⟨hne, -⟩ | ⟨hne, -⟩⟩ := exec_cases i s
  · exact ht
  · exact absurd hclr hi
  · exact absurd hm hne
  · exact absurd hm hne

/-- A command its mode forbids is an error entry with its own word (60_exceptions.md R153, R154). -/
theorem exec_of_forbidden (hm : s.mode ≠ .error) (ha : allowed i s.mode = false) :
    exec i s = .next (s.raise .sequenceError (encodeCmd i)) := by
  obtain ⟨t, ht, ⟨herr, -⟩ | ⟨rfl, -⟩ | ⟨-, -, rfl⟩ | ⟨-, -, hallowed, -⟩⟩ := exec_cases i s
  · exact absurd herr hm
  · cases ha
  · exact ht
  · cases ha.symm.trans hallowed

/-- A command its mode allows answers what the body of its rule writes. -/
theorem exec_of_allowed (hm : s.mode ≠ .error) (ha : allowed i s.mode = true) :
    ∃ t, exec i s = .next t ∧ Body i s t := by
  obtain ⟨t, ht, ⟨herr, -⟩ | ⟨rfl, rfl⟩ | ⟨-, hforbidden, -⟩ | ⟨-, -, -, hB⟩⟩ := exec_cases i s
  · exact absurd herr hm
  · exact ⟨_, ht, rfl⟩
  · cases ha.symm.trans hforbidden
  · exact ⟨t, ht, hB⟩

end

/-- An illegal word has no effect in ERROR mode and is an error entry in every other (60_exceptions.md R152, R154). -/
theorem step_given_of_illegal {w : Word} (h : ¬legal w = true) (s : State) :
    step (s.given w) = .next (if s.mode = .error then s else s.inError .illegalCommand w) := by
  rcases issueCommand_cases w s with ⟨i, hi, -⟩ | ⟨r, -, hr⟩
  · exact absurd ((legal_iff_exists_encodeCmd w).2 ⟨i, decodeCmd_eq_ok_iff.1 hi⟩) h
  · exact (step_issueNext s w).trans hr

/-- The word of a command, from its number. -/
theorem encodeCmd_eq_ofNat {i : Instr} {n : Nat} (h : (encodeCmd i).toNat = n) : encodeCmd i = BitVec.ofNat 16 n := by
  rw [← h, BitVec.ofNat_toNat, BitVec.setWidth_eq]

end Sys2Proof.Machine
end

section
/-! SUPPORT. The LUT commands in IDLE (40_alphabet_lut.md R85, R86). -/

namespace Sys2Proof.Machine

theorem exec_lutSym_of_idle (v : Group) {s : State} (hm : s.mode = .idle) :
    exec (.lutSym v) s = .next (s.setResult (lut v)) := by
  obtain ⟨t, ht, hB⟩ := exec_of_allowed (i := .lutSym v) (s := s) (by simp [hm]) (by simp [hm, allowed])
  cases hB
  exact ht

theorem exec_lutIdx_of_idle {c : Byte} {v : Group} {s : State} (hm : s.mode = .idle) (hc : idx c = some v) :
    exec (.lutIdx c) s = .next (s.setResult (groupToByte v)) := by
  obtain ⟨t, ht, ⟨hnone, -⟩ | ⟨v', hv', rfl⟩⟩ :=
    exec_of_allowed (i := .lutIdx c) (s := s) (by simp [hm]) (by simp [hm, allowed])
  · cases hnone.symm.trans hc
  · cases hv'.symm.trans hc
    exact ht

theorem exec_lutIdx_of_idle_of_none {c : Byte} {s : State} (hm : s.mode = .idle) (hc : idx c = none) :
    exec (.lutIdx c) s = .next (s.raise .invalidSymbol (encodeCmd (.lutIdx c))) := by
  obtain ⟨t, ht, ⟨-, rfl⟩ | ⟨v, hv, -⟩⟩ :=
    exec_of_allowed (i := .lutIdx c) (s := s) (by simp [hm]) (by simp [hm, allowed])
  · exact ht
  · cases hv.symm.trans hc

/-- LUT_IDX from IDLE by the closed form of R83. -/
theorem exec_lutIdx_of_idle_eq (c : Byte) {s : State} (hm : s.mode = .idle) :
    exec (.lutIdx c) s = .next (
      if 0x61 ≤ c.toNat ∧ c.toNat ≤ 0x7A then s.setResult (BitVec.ofNat 8 (c.toNat - 0x61))
      else if 0x32 ≤ c.toNat ∧ c.toNat ≤ 0x37 then s.setResult (BitVec.ofNat 8 (c.toNat - 0x32 + 26))
      else s.raise .invalidSymbol (encodeCmd (.lutIdx c))) := by
  split
  next hletter => rw [exec_lutIdx_of_idle hm (idx_of_letter hletter), groupToByte_ofNat (by omega)]
  split
  next hdigit => rw [exec_lutIdx_of_idle hm (idx_of_digit hdigit), groupToByte_ofNat (by omega)]
  next hletter hdigit => exact exec_lutIdx_of_idle_of_none hm (idx_eq_none_iff.2 (not_or.2 ⟨hletter, hdigit⟩))

end Sys2Proof.Machine
end

section
/-! The obligations of 40_alphabet_lut.md. -/

namespace Sys2Proof.Machine

/-- Settles O8: the mode decides among the body, SEQUENCE_ERROR and no effect, and a word from 0x6020 on has a bit above
the operand. -/
theorem lutSymWritesTheSymbol : Obligations.LutSymWritesTheSymbol := by
  refine ⟨fun v s => ?_, fun w s hlow hhigh => step_given_of_illegal (fun hl => ?_) s⟩
  · have hword := encodeCmd_eq_ofNat (encodeCmd_toNat (.lutSym v))
    split
    next hm => rw [exec_lutSym_of_idle v hm, lut_eq_ofNat]; rfl
    next hm => rw [exec_of_forbidden (by simp [hm]) (by simp [hm, allowed]), hword]; rfl
    next hm => rw [exec_of_forbidden (by simp [hm]) (by simp [hm, allowed]), hword]; rfl
    next hm => exact exec_of_error nofun hm
  · obtain ⟨-, hrsv, -, hopd⟩ := (legal_iff_toNat w).1 hl
    omega

/-- Settles O9: in IDLE by the three cases of the closed form of IDX, otherwise by the mode; a word from 0x7100 on has a
non-zero RSV field. -/
theorem lutIdxWritesTheIndex : Obligations.LutIdxWritesTheIndex := by
  refine ⟨fun c s => ?_, fun w s hlow hhigh => step_given_of_illegal (fun hl => ?_) s⟩
  · have hword := encodeCmd_eq_ofNat (encodeCmd_toNat (.lutIdx c))
    split
    next hm => rw [exec_lutIdx_of_idle_eq c hm, hword]; rfl
    next hm => rw [exec_of_forbidden (by simp [hm]) (by simp [hm, allowed]), hword]; rfl
    next hm => rw [exec_of_forbidden (by simp [hm]) (by simp [hm, allowed]), hword]; rfl
    next hm => exact exec_of_error nofun hm
  · obtain ⟨-, hrsv, -⟩ := (legal_iff_toNat w).1 hl
    omega

/-- Settles O41: the two cases of the closed form; IDX tells the symbols apart. -/
theorem alphabetIsLettersThenDigits : Obligations.AlphabetIsLettersThenDigits := by
  refine ⟨fun v hv => ?_, fun v hv => ?_, fun _ _ h => lut_injective h⟩
  · rw [lut_toNat, if_pos (by omega)]
  · rw [lut_toNat, if_neg (by omega)]

/-- Settles O42: the code units without an index are the complement of the 32 symbols. -/
theorem idxInvertsTheTable : Obligations.IdxInvertsTheTable := by
  refine ⟨fun _ _ => idx_eq_some_iff, fun _ => idx_eq_none_iff, symbolsᶜ.toList, symbolsᶜ.nodup_toList, ?_, fun c => ?_⟩
  · rw [Finset.length_toList, card_symbols_compl]
  · rw [Finset.mem_toList, mem_symbols_compl]

/-- Settles O43: neither command changes MODE here, so the second one runs from IDLE on the first one's RESULT. -/
theorem lutCommandsUndoEachOther : Obligations.LutCommandsUndoEachOther := by
  refine ⟨fun v s hm => ?_, fun c v s hm hc => ?_⟩
  · exact ⟨_, _, exec_lutSym_of_idle v hm, exec_lutIdx_of_idle (s := s.setResult (lut v)) hm (idx_lut v), hm,
      groupToByte_toNat v⟩
  · refine ⟨_, _, exec_lutIdx_of_idle hm (idx_eq_some_iff.2 hc),
      exec_lutSym_of_idle _ (s := s.setResult (groupToByte v)) hm, ?_, hm, ?_⟩
    · rw [State.setResult_result, groupToByte_toNat]
      exact v.isLt
    · rw [State.setResult_result, State.setResult_result, setWidth_groupToByte, hc]

end Sys2Proof.Machine
end

section
/-! SUPPORT. The encoder's commands in the modes that allow them, in exact arithmetic (41_encoder.md R103, R104). -/

namespace Sys2Proof.Machine

/-- INV_ACC where at most four residual bits are left. -/
theorem acc_lt_sixteen {s : State} (hacc : InvAcc s) (hcnt : s.cnt.toNat ≤ 4) : s.acc.toNat < 16 :=
  hacc.trans_le (Nat.pow_le_pow_right (by decide) hcnt)

/-- The count that ENC_BYTE and ENC_END start from, in the modes that allow them. -/
theorem cnt_le_four {s : State} (hs : InvMode s) (hm : s.mode = .idle ∨ s.mode = .enc) : s.cnt.toNat ≤ 4 :=
  cnt_le_four_of_allowed (d := 0) hs (by rcases hm with hm | hm <;> rw [hm] <;> rfl)

/-- A command allowed in IDLE and in ENC answers what its body writes. -/
theorem exec_of_open {i : Instr} {s : State} (hm : s.mode = .idle ∨ s.mode = .enc) (hidle : allowed i .idle = true)
    (henc : allowed i .enc = true) : ∃ t, exec i s = .next t ∧ Body i s t := by
  rcases hm with hm | hm
  · exact exec_of_allowed (by simp [hm]) (hm ▸ hidle)
  · exact exec_of_allowed (by simp [hm]) (hm ▸ henc)

theorem exec_encByte_of_open (d : Byte) {s : State} (hm : s.mode = .idle ∨ s.mode = .enc) :
    exec (.encByte d) s = .next (encByteBody d s) := by
  obtain ⟨t, ht, rfl⟩ := exec_of_open (i := .encByte d) hm rfl rfl
  exact ht

theorem exec_encEnd_of_open {s : State} (hm : s.mode = .idle ∨ s.mode = .enc) :
    exec .encEnd s = .next (encEndBody s) := by
  obtain ⟨t, ht, rfl⟩ := exec_of_open (i := .encEnd) hm rfl rfl
  exact ht

theorem encByteBody_mode (d : Byte) (s : State) : (encByteBody d s).mode = .enc := rfl

/-- ENC_BYTE leaves the bits after the last complete group (41_encoder.md R103). -/
theorem encByteBody_cnt (d : Byte) (s : State) : (encByteBody d s).cnt.toNat = (s.cnt.toNat + 8) % 5 := by
  obtain ⟨hrest, -⟩ := drainGroups_spec (shiftInByte s.acc d) (s.cnt.toNat + 8) _ (Nat.le_refl _)
  simp only [encByteBody, State.setMode_cnt, State.setResidue_cnt, hrest, BitVec.toNat_ofNat]
  omega

/-- ENC_BYTE appends one symbol for each complete group, and nothing else. -/
theorem encByteBody_out (d : Byte) (s : State) :
    ∃ items, (encByteBody d s).out = s.out ++ items ∧ items.length = (s.cnt.toNat + 8) / 5 ∧
      ∀ b ∈ items, ∃ v, b = lut v := by
  obtain ⟨-, hlen, hlut⟩ := drainGroups_spec (shiftInByte s.acc d) (s.cnt.toNat + 8) _ (Nat.le_refl _)
  exact ⟨_, rfl, hlen, hlut⟩

theorem ofNat_mod_two_pow (w x : Nat) : BitVec.ofNat w (x % 2 ^ w) = BitVec.ofNat w x :=
  BitVec.eq_of_toNat_eq (by simp only [BitVec.toNat_ofNat, Nat.mod_mod])

/-- The symbols of the complete groups among the `n` bits of the number `x`, where there are one or two
(41_encoder.md R103). -/
def completeSymbols (x n : Nat) : List Byte :=
  if n < 10 then [lut (BitVec.ofNat 5 (x / 2 ^ (n - 5)))]
  else [lut (BitVec.ofNat 5 (x / 2 ^ (n - 5))), lut (BitVec.ofNat 5 (x / 2 ^ (n - 10) % 2 ^ 5))]

/-- The loop of ENC_BYTE in exact arithmetic. -/
theorem drainGroups_eq_completeSymbols {t : Acc} {x n : Nat} (hx : t.toNat = x) (hlow : 8 ≤ n) (hhigh : n ≤ 12) :
    drainGroups t n n = (completeSymbols x n, n % 5) := by
  unfold completeSymbols
  by_cases hn : n < 10
  · have hrest : n - 5 = n % 5 := by omega
    rw [drainGroups_once t n n (by omega) hn (by omega), if_pos hn, groupAt_eq, hx, hrest]
  · have hrest : n - 5 - 5 = n % 5 := by omega
    rw [drainGroups_twice t n n (by omega) (by omega) (by omega), if_neg hn, groupAt_eq, groupAt_eq, hx,
      ofNat_mod_two_pow, ← hrest, Nat.sub_sub]

/-- The body of ENC_BYTE in exact arithmetic, with the residual bits and the byte as one number. -/
theorem encByteBody_eq_exact (d : Byte) {s : State} (hacc : InvAcc s) (hcnt : s.cnt.toNat ≤ 4) :
    encByteBody d s =
      let x := s.acc.toNat * 256 + d.toNat
      let n := s.cnt.toNat + 8
      { s with
        mode := .enc, acc := BitVec.ofNat 12 (x % 2 ^ (n % 5)), cnt := BitVec.ofNat 4 (n % 5)
        out := s.out ++ completeSymbols x n } := by
  have hx := shiftInByte_toNat s.acc d (acc_lt_sixteen hacc hcnt)
  simp only [encByteBody, drainGroups_eq_completeSymbols hx (Nat.le_add_left 8 _) (Nat.add_le_add_right hcnt 8),
    State.setMode, State.setResidue, State.emit, newestBits, hx]

/-- What ENC_END emits: the symbol of the residual bits, padded on the right with `5 - CNT` zero bits, or nothing where
no bit is left (41_encoder.md R104). -/
def State.finalSymbol (s : State) : List Byte :=
  if s.cnt.toNat = 0 then [] else [lut (BitVec.ofNat 5 (s.acc.toNat * 2 ^ (5 - s.cnt.toNat)))]

theorem encEndBody_of_enc {s : State} (hm : s.mode = .enc) : encEndBody s = (s.emit s.finalSymbol).closeSession := by
  rw [encEndBody, if_pos hm, State.finalSymbol]
  by_cases hcnt : s.cnt.toNat = 0
  · rw [if_neg (by omega), if_pos hcnt, State.emit_nil]
  · rw [if_pos (by omega), if_neg hcnt, padGroup_eq]

/-- In IDLE mode no residual bit is left to emit (10_state.md R26). -/
theorem finalSymbol_of_idle {s : State} (hs : InvMode s) (hm : s.mode = .idle) : s.finalSymbol = [] := by
  obtain ⟨hidle, -⟩ := hs
  obtain ⟨-, hcnt⟩ := hidle hm
  exact if_pos (by rw [hcnt]; rfl)

/-- In IDLE mode there is no session to close. -/
theorem closeSession_of_idle {s : State} (hs : InvMode s) (hm : s.mode = .idle) : s.closeSession = s := by
  obtain ⟨hidle, -⟩ := hs
  obtain ⟨hacc, hcnt⟩ := hidle hm
  rw [State.closeSession, ← hacc, ← hcnt, ← hm]

theorem exec_encEnd_of_idle {s : State} (hm : s.mode = .idle) : exec .encEnd s = .next s := by
  rw [exec_encEnd_of_open (.inl hm), encEndBody, if_neg (by simp [hm])]

theorem exec_encEnd_of_enc {s : State} (hm : s.mode = .enc) :
    exec .encEnd s = .next (s.emit s.finalSymbol).closeSession := by
  rw [exec_encEnd_of_open (.inr hm), encEndBody_of_enc hm]

/-- From IDLE or ENC, ENC_END emits the final symbol and closes the session, which in IDLE mode changes nothing. -/
theorem exec_encEnd_eq {s : State} (hs : InvMode s) (hm : s.mode = .idle ∨ s.mode = .enc) :
    exec .encEnd s = .next (s.emit s.finalSymbol).closeSession := by
  rcases hm with hm | hm
  · rw [exec_encEnd_of_idle hm, finalSymbol_of_idle hs hm, State.emit_nil, closeSession_of_idle hs hm]
  · exact exec_encEnd_of_enc hm

/-- Whatever ENC_END appends, in every state, is a symbol. -/
theorem encEndBody_out (s : State) :
    ∃ items, (encEndBody s).out = s.out ++ items ∧ ∀ b ∈ items, ∃ v, b = lut v := by
  rcases encEndBody_cases s with ⟨-, heq⟩ | ⟨hm, -⟩
  · exact ⟨[], by rw [heq, List.append_nil], nofun⟩
  · refine ⟨s.finalSymbol, by rw [encEndBody_of_enc hm]; rfl, fun b hb => ?_⟩
    rw [State.finalSymbol] at hb
    split at hb
    · cases hb
    · exact ⟨_, List.mem_singleton.1 hb⟩

/-- The code units of the symbols (40_alphabet_lut.md R80). -/
theorem lut_mem_ranges (v : Group) :
    (0x61 ≤ (lut v).toNat ∧ (lut v).toNat ≤ 0x7A) ∨ (0x32 ≤ (lut v).toNat ∧ (lut v).toNat ≤ 0x37) := by
  have hv := v.isLt
  rw [lut_toNat]
  split <;> omega

end Sys2Proof.Machine
end

section
/-! SUPPORT. Bit sequences: their value, their complete groups and the bits left over (00_scope.md R9, 20_memory.md R45
to R47, 41_encoder.md R100, R101). -/

namespace Sys2Proof.Machine

theorem value_concat (l : List Bool) (b : Bool) : value (l ++ [b]) = 2 * value l + b.toNat := List.foldl_append

/-- The first bits of a sequence are its most significant ones. -/
theorem value_append (u v : List Bool) : value (u ++ v) = value u * 2 ^ v.length + value v := by
  induction v using List.reverseRecOn with
  | nil => simp [value]
  | append_singleton v b ih =>
    rw [← List.append_assoc, value_concat, value_concat, ih, List.length_append, List.length_singleton, pow_succ]
    ring

theorem value_lt (l : List Bool) : value l < 2 ^ l.length := by
  induction l using List.reverseRecOn with
  | nil => decide
  | append_singleton l b ih =>
    have hb := b.toNat_lt
    rw [value_concat, List.length_append, List.length_singleton, pow_succ]
    omega

theorem value_replicate_false (n : Nat) : value (List.replicate n false) = 0 := by
  induction n with
  | zero => rfl
  | succ n ih => rw [List.replicate_succ', value_concat, ih]; rfl

theorem value_take_add_value_drop (l : List Bool) (k : Nat) :
    value l = value (l.take k) * 2 ^ (l.length - k) + value (l.drop k) := by
  rw [← List.length_drop, ← value_append, List.take_append_drop]

theorem value_drop_lt (l : List Bool) (k : Nat) : value (l.drop k) < 2 ^ (l.length - k) :=
  List.length_drop (l := l) ▸ value_lt (l.drop k)

/-- Taking the oldest bits of a sequence is a division of its value. -/
theorem value_take (l : List Bool) (k : Nat) : value (l.take k) = value l / 2 ^ (l.length - k) := by
  rw [value_take_add_value_drop l k, Nat.mul_comm, Nat.mul_add_div (Nat.two_pow_pos _),
    Nat.div_eq_of_lt (value_drop_lt l k), Nat.add_zero]

/-- Dropping the oldest bits of a sequence leaves a remainder of its value. -/
theorem value_drop (l : List Bool) (k : Nat) : value (l.drop k) = value l % 2 ^ (l.length - k) := by
  rw [value_take_add_value_drop l k, Nat.mul_add_mod_of_lt (value_drop_lt l k)]

@[simp] theorem length_bitsOf {w : Nat} (v : BitVec w) : (bitsOf v).length = w := by
  simp [bitsOf]

/-- The `m` most significant bits of a value are its quotient by the weight of the other bits. -/
theorem value_msbs {w : Nat} (v : BitVec w) {m : Nat} (hm : m ≤ w) :
    value ((List.range m).map fun i => v.getLsbD (w - 1 - i)) = v.toNat / 2 ^ (w - m) := by
  induction m with
  | zero => exact (Nat.div_eq_of_lt v.isLt).symm
  | succ m ih =>
    have hbit : w - 1 - m = w - (m + 1) := by omega
    have hweight : w - m = w - (m + 1) + 1 := by omega
    rw [List.range_succ, List.map_append, List.map_singleton, value_concat, ih (by omega), hbit, hweight, pow_succ,
      ← Nat.div_div_eq_div_mul, BitVec.getLsbD, Nat.toNat_testBit]
    exact Nat.div_add_mod _ 2

/-- The bits of a value, read as a number, are the value. -/
theorem value_bitsOf {w : Nat} (v : BitVec w) : value (bitsOf v) = v.toNat := by
  rw [bitsOf, value_msbs v le_rfl, Nat.sub_self, pow_zero, Nat.div_one]

/-- The bits of a sequence after its complete `k`-bit groups. -/
def leftover (k : Nat) (l : List Bool) : List Bool := l.drop (l.length - l.length % k)

@[simp] theorem length_leftover (k : Nat) (l : List Bool) : (leftover k l).length = l.length % k := by
  have := Nat.mod_le l.length k
  rw [leftover, List.length_drop]
  omega

theorem value_leftover (k : Nat) (l : List Bool) : value (leftover k l) = value l % 2 ^ (l.length % k) := by
  have := Nat.mod_le l.length k
  rw [leftover, value_drop]
  congr 2
  omega

@[simp] theorem length_groups (k : Nat) (l : List Bool) : (groups k l).length = l.length / k := by
  simp [groups]

/-- A sequence of whole groups comes first. -/
theorem groups_append {k : Nat} (hk : 0 < k) {u : List Bool} (hu : k ∣ u.length) (v : List Bool) :
    groups k (u ++ v) = groups k u ++ groups k v := by
  obtain ⟨m, hm⟩ := hu
  have hlen : (u ++ v).length / k = m + v.length / k := by
    rw [List.length_append, hm, Nat.mul_add_div hk]
  rw [groups, hlen, List.range_add, List.map_append, List.map_map]
  congr 1
  · rw [groups, hm, Nat.mul_div_cancel_left _ hk]
    refine List.map_congr_left fun j hj => ?_
    have hjm : k * (j + 1) ≤ k * m := Nat.mul_le_mul_left k (List.mem_range.1 hj)
    rw [Nat.mul_add, Nat.mul_one] at hjm
    rw [List.drop_append_of_le_length (by omega), List.take_append_of_le_length (by rw [List.length_drop]; omega)]
  · rw [groups]
    refine List.map_congr_left fun j _ => ?_
    rw [Function.comp_apply, Nat.mul_add, ← hm, List.drop_length_add_append]

theorem groups_of_length_lt {k : Nat} {l : List Bool} (h : l.length < k) : groups k l = [] := by
  rw [groups, Nat.div_eq_of_lt h]
  rfl

theorem groups_of_length_eq {k : Nat} (hk : 0 < k) {l : List Bool} (h : l.length = k) : groups k l = [l] := by
  rw [groups, h, Nat.div_self hk]
  simp [← h]

/-- A sequence is its complete groups and then the bits left over. -/
theorem exists_append_leftover (k : Nat) (l : List Bool) : ∃ u, k ∣ u.length ∧ u ++ leftover k l = l := by
  refine ⟨l.take (l.length - l.length % k), ?_, List.take_append_drop _ l⟩
  rw [List.length_take, Nat.min_eq_left (Nat.sub_le _ _)]
  exact Nat.dvd_sub_mod _

/-- Further bits complete the groups that the bits left over begin. -/
theorem groups_append_leftover {k : Nat} (hk : 0 < k) (l v : List Bool) :
    groups k (l ++ v) = groups k l ++ groups k (leftover k l ++ v) := by
  obtain ⟨u, hu, hl⟩ := exists_append_leftover k l
  have hnone : groups k (leftover k l) = [] := groups_of_length_lt (by rw [length_leftover]; exact Nat.mod_lt _ hk)
  calc groups k (l ++ v) = groups k (u ++ (leftover k l ++ v)) := by rw [← List.append_assoc, hl]
    _ = groups k (u ++ leftover k l) ++ groups k (leftover k l ++ v) := by
      rw [groups_append hk hu, groups_append hk hu, hnone, List.append_nil]
    _ = groups k l ++ groups k (leftover k l ++ v) := by rw [hl]

/-- Whole groups in front leave the bits left over as they are. -/
theorem leftover_append {k : Nat} {u : List Bool} (hu : k ∣ u.length) (v : List Bool) :
    leftover k (u ++ v) = leftover k v := by
  have hmod : (u ++ v).length % k = v.length % k := by
    obtain ⟨m, hm⟩ := hu
    rw [List.length_append, hm, Nat.mul_add_mod]
  rw [leftover, hmod, List.length_append, Nat.add_sub_assoc (Nat.mod_le _ _), List.drop_length_add_append, leftover]

theorem leftover_append_leftover (k : Nat) (l v : List Bool) :
    leftover k (l ++ v) = leftover k (leftover k l ++ v) := by
  obtain ⟨u, hu, hl⟩ := exists_append_leftover k l
  calc leftover k (l ++ v) = leftover k (u ++ (leftover k l ++ v)) := by rw [← List.append_assoc, hl]
    _ = leftover k (leftover k l ++ v) := leftover_append hu _

end Sys2Proof.Machine
end

section
/-! SUPPORT. The block's arithmetic against the reference encoder: the symbols of the complete groups, and the padded
last group (41_encoder.md R101 to R104). -/

namespace Sys2Proof.Machine

/-- The symbols of the complete groups of a bit sequence. -/
def symbolsOf (l : List Bool) : List Byte := (groups 5 l).map fun g => lut (BitVec.ofNat 5 (value g))

theorem encRef_eq_symbolsOf (b : List Byte) : encRef b = symbolsOf (padBits (bits b)) := rfl

@[simp] theorem length_symbolsOf (l : List Bool) : (symbolsOf l).length = l.length / 5 := by
  rw [symbolsOf, List.length_map, length_groups]

theorem symbolsOf_append_leftover (l v : List Bool) :
    symbolsOf (l ++ v) = symbolsOf l ++ symbolsOf (leftover 5 l ++ v) := by
  rw [symbolsOf, groups_append_leftover (by decide), List.map_append]
  rfl

theorem symbolsOf_of_length_lt {l : List Bool} (h : l.length < 5) : symbolsOf l = [] := by
  rw [symbolsOf, groups_of_length_lt h, List.map_nil]

theorem symbolsOf_of_length_eq {l : List Bool} (h : l.length = 5) :
    symbolsOf l = [lut (BitVec.ofNat 5 (value l))] := by
  rw [symbolsOf, groups_of_length_eq (by decide) h, List.map_singleton]

/-- The oldest group gives the first symbol. -/
theorem symbolsOf_of_le_length {l : List Bool} (h : 5 ≤ l.length) :
    symbolsOf l = lut (BitVec.ofNat 5 (value l / 2 ^ (l.length - 5))) :: symbolsOf (l.drop 5) := by
  have hlen : (l.take 5).length = 5 := by rw [List.length_take, Nat.min_eq_left h]
  calc symbolsOf l = symbolsOf (l.take 5 ++ l.drop 5) := by rw [List.take_append_drop]
    _ = symbolsOf (l.take 5) ++ symbolsOf (l.drop 5) := by
      rw [symbolsOf, groups_append (by decide) (by rw [hlen]), List.map_append]
      rfl
    _ = _ := by rw [symbolsOf_of_length_eq hlen, value_take, List.singleton_append]

/-- `t[n-1 : n-5]` reads the newest `n` bits of `t` only. -/
theorem groupAt_eq_of_mod {t : Acc} {n x : Nat} (hn : 5 ≤ n) (hx : t.toNat % 2 ^ n = x) :
    groupAt t n = BitVec.ofNat 5 (x / 2 ^ (n - 5)) := by
  obtain ⟨k, rfl⟩ := Nat.exists_eq_add_of_le' hn
  rw [groupAt_eq, ← hx, Nat.add_sub_cancel, pow_add, Nat.mod_mul_right_div_self, ofNat_mod_two_pow]

/-- The loop of ENC_BYTE emits the symbols of the complete groups of the sequence that the newest bits of `t` hold
(41_encoder.md R103 against R101). -/
theorem drainGroups_eq_symbolsOf {t : Acc} {fuel : Nat} {l : List Bool} (hfuel : l.length ≤ fuel)
    (ht : t.toNat % 2 ^ l.length = value l) : drainGroups t fuel l.length = (symbolsOf l, l.length % 5) := by
  induction fuel generalizing l with
  | zero =>
    cases List.length_eq_zero_iff.1 (Nat.le_zero.1 hfuel)
    rfl
  | succ fuel ih =>
    by_cases h5 : 5 ≤ l.length
    · have hrest : (l.drop 5).length = l.length - 5 := List.length_drop
      have ht' : t.toNat % 2 ^ (l.drop 5).length = value (l.drop 5) := by
        rw [value_drop, ← ht, hrest, Nat.mod_mod_of_dvd _ (Nat.pow_dvd_pow 2 (Nat.sub_le _ 5))]
      have hdrain := ih (by omega) ht'
      rw [hrest] at hdrain
      rw [drainGroups, if_pos h5, hdrain, groupAt_eq_of_mod h5 ht, symbolsOf_of_le_length h5, Nat.mod_eq_sub_mod h5]
    · rw [drainGroups, if_neg h5, symbolsOf_of_length_lt (by omega), Nat.mod_eq_of_lt (by omega)]

/-- Padding the last short group adds its symbol (41_encoder.md R101). -/
theorem symbolsOf_padBits (l : List Bool) :
    symbolsOf (padBits l) = symbolsOf l ++
      if l.length % 5 = 0 then [] else [lut (BitVec.ofNat 5 (value (leftover 5 l) * 2 ^ (5 - l.length % 5)))] := by
  unfold padBits
  split
  next => rw [List.append_nil]
  next =>
    have hlen : (leftover 5 l ++ List.replicate (5 - l.length % 5) false).length = 5 := by
      rw [List.length_append, length_leftover, List.length_replicate]
      omega
    rw [symbolsOf_append_leftover, symbolsOf_of_length_eq hlen, value_append, value_replicate_false,
      List.length_replicate, Nat.add_zero]

@[simp] theorem length_bits (b : List Byte) : (bits b).length = 8 * b.length := by
  rw [bits, List.length_flatMap]
  simp [Nat.mul_comm]

theorem bits_concat (b : List Byte) (d : Byte) : bits (b ++ [d]) = bits b ++ bitsOf d := by
  simp [bits]

/-- The bits ENC_BYTE has before it: those left over from the bytes `b`, then the new byte's (41_encoder.md R103). -/
def heldBits (b : List Byte) (d : Byte) : List Bool := leftover 5 (bits b) ++ bitsOf d

theorem length_heldBits (b : List Byte) (d : Byte) : (heldBits b d).length = (bits b).length % 5 + 8 := by
  rw [heldBits, List.length_append, length_leftover, length_bitsOf]

theorem value_heldBits (b : List Byte) (d : Byte) :
    value (heldBits b d) = value (leftover 5 (bits b)) * 256 + d.toNat := by
  rw [heldBits, value_append, value_bitsOf, length_bitsOf]
  rfl

theorem symbolsOf_bits_concat (b : List Byte) (d : Byte) :
    symbolsOf (bits (b ++ [d])) = symbolsOf (bits b) ++ symbolsOf (heldBits b d) := by
  rw [bits_concat, symbolsOf_append_leftover, heldBits]

theorem leftover_bits_concat (b : List Byte) (d : Byte) :
    leftover 5 (bits (b ++ [d])) = leftover 5 (heldBits b d) := by
  rw [bits_concat, leftover_append_leftover, heldBits]

/-- At most four bits are left over. -/
theorem value_leftover_five_lt (l : List Bool) : value (leftover 5 l) < 16 := by
  refine (value_lt _).trans_le (Nat.pow_le_pow_right (n := 2) (j := 4) (by decide) ?_)
  rw [length_leftover]
  omega

/-- The length law in whole numbers (41_encoder.md R102). -/
theorem length_encRef (b : List Byte) : (encRef b).length = (8 * b.length + 4) / 5 := by
  rw [encRef_eq_symbolsOf, symbolsOf_padBits, List.length_append, length_symbolsOf, length_bits]
  split
  next => rw [List.length_nil]; omega
  next => rw [List.length_singleton]; omega

end Sys2Proof.Machine
end

section
/-! SUPPORT. An encode session from IDLE, as a state for each list of bytes so far (41_encoder.md R105, R106). -/

namespace Sys2Proof.Machine

/-- The state an encode session that began in `s` is in after the bytes `b`. -/
def State.encoding (s : State) (b : List Byte) : State :=
  { s with
    mode := if b = [] then .idle else .enc
    acc := BitVec.ofNat 12 (value (leftover 5 (bits b)))
    cnt := BitVec.ofNat 4 ((bits b).length % 5)
    out := s.out ++ symbolsOf (bits b) }

/-- The state after the whole session. -/
def State.encoded (s : State) (b : List Byte) : State := (s.emit (encRef b)).closeSession

section

variable (s : State) (b : List Byte)

@[simp] theorem State.encoding_out : (s.encoding b).out = s.out ++ symbolsOf (bits b) := rfl

theorem State.encoding_cnt_toNat : (s.encoding b).cnt.toNat = (bits b).length % 5 := by
  rw [State.encoding, BitVec.toNat_ofNat]
  omega

theorem State.encoding_acc_toNat : (s.encoding b).acc.toNat = value (leftover 5 (bits b)) := by
  have hlt := value_leftover_five_lt (bits b)
  rw [State.encoding, BitVec.toNat_ofNat]
  omega

theorem State.encoding_mode : (s.encoding b).mode = .idle ∨ (s.encoding b).mode = .enc :=
  ite_eq_or_eq _ _ _

end

/-- No byte yet: the session has not begun. -/
theorem State.encoding_nil {s : State} (hs : InvMode s) (hm : s.mode = .idle) : s.encoding [] = s := by
  obtain ⟨hidle, -⟩ := hs
  obtain ⟨hacc, hcnt⟩ := hidle hm
  have hout : s.out ++ symbolsOf (bits []) = s.out := List.append_nil _
  rw [State.encoding, hout, if_pos rfl, ← hm]
  exact congrArg₂ (fun acc cnt => { s with acc := acc, cnt := cnt }) hacc.symm hcnt.symm

theorem shiftInByte_encoding_toNat (d : Byte) (s : State) (b : List Byte) :
    (shiftInByte (s.encoding b).acc d).toNat = value (heldBits b d) := by
  have hacc := s.encoding_acc_toNat b
  rw [shiftInByte_toNat _ _ (hacc ▸ value_leftover_five_lt _), hacc, value_heldBits]

/-- One more byte (41_encoder.md R103 against R100, R101). -/
theorem encByteBody_encoding (d : Byte) (s : State) (b : List Byte) :
    encByteBody d (s.encoding b) = s.encoding (b ++ [d]) := by
  have hcnt : (s.encoding b).cnt.toNat + 8 = (heldBits b d).length := by
    rw [State.encoding_cnt_toNat, length_heldBits]
  have hvalue := shiftInByte_encoding_toNat d s b
  have hdrain := drainGroups_eq_symbolsOf (Nat.le_refl _) (by rw [hvalue, Nat.mod_eq_of_lt (value_lt _)])
  have hrest : (heldBits b d).length % 5 = (bits (b ++ [d])).length % 5 := by
    rw [← length_leftover, ← leftover_bits_concat, length_leftover]
  have hnewest : newestBits (shiftInByte (s.encoding b).acc d) ((bits (b ++ [d])).length % 5) =
      BitVec.ofNat 12 (value (leftover 5 (bits (b ++ [d])))) := by
    rw [newestBits, hvalue, ← hrest, ← value_leftover, leftover_bits_concat]
  have hmode : (s.encoding (b ++ [d])).mode = .enc := if_neg (List.concat_ne_nil d b)
  simp only [encByteBody, hcnt, hdrain, hrest, State.setResidue, hnewest, State.emit, State.encoding_out,
    List.append_assoc, ← symbolsOf_bits_concat]
  rw [← hmode]
  rfl

theorem exec_encByte_encoding (d : Byte) (s : State) (b : List Byte) :
    exec (.encByte d) (s.encoding b) = .next (s.encoding (b ++ [d])) := by
  rw [exec_encByte_of_open d (s.encoding_mode b), encByteBody_encoding]

/-- The final symbol is that of the padded last group (41_encoder.md R104 against R101). -/
theorem out_append_finalSymbol (s : State) (b : List Byte) :
    (s.encoding b).out ++ (s.encoding b).finalSymbol = s.out ++ encRef b := by
  rw [State.encoding_out, State.finalSymbol, State.encoding_cnt_toNat, State.encoding_acc_toNat, List.append_assoc,
    encRef_eq_symbolsOf, symbolsOf_padBits]

theorem emit_finalSymbol_closeSession (s : State) (b : List Byte) :
    ((s.encoding b).emit (s.encoding b).finalSymbol).closeSession = s.encoded b := by
  simp only [State.closeSession, State.emit, State.encoded, out_append_finalSymbol]
  rfl

/-- The end of the session; with no byte before it, it is issued in IDLE (41_encoder.md R104). -/
theorem exec_encEnd_encoding {s : State} (hs : InvMode s) (hm : s.mode = .idle) (b : List Byte) :
    exec .encEnd (s.encoding b) = .next (s.encoded b) := by
  rw [← emit_finalSymbol_closeSession]
  cases b with
  | nil => rw [State.encoding_nil hs hm, exec_encEnd_eq hs (.inl hm)]
  | cons d b => exact exec_encEnd_of_enc rfl

/-- The issued word of a command runs the command (30_encoding.md R66). -/
theorem interact_encodeCmd (i : Instr) (s : State) : interact (.command (encodeCmd i)) s = exec i s :=
  issueCommand_of_decode (decodeCmd_encodeCmd i) s

/-- An encode session goes on byte by byte. -/
theorem run_encBytes_encoding (s : State) (pre b : List Byte) :
    run (issue (encBytes b)) (s.encoding pre) = .next ((s.encoding (pre ++ b)).setPending []) := by
  induction b generalizing pre with
  | nil => rw [List.append_nil]; rfl
  | cons d b ih =>
    have hbyte := (interact_encodeCmd _ _).trans (exec_encByte_encoding d s pre)
    exact (run_cons (issue (encBytes b)) hbyte).trans (by rw [ih, List.append_assoc, List.singleton_append])

section

variable {s : State} (b : List Byte) (hs : BlockInv s) (hm : s.mode = .idle)

include hs hm

theorem run_encBytes : run (issue (encBytes b)) s = .next ((s.encoding b).setPending []) := by
  obtain ⟨-, hmode, -⟩ := hs
  have hrun := run_encBytes_encoding s [] b
  rwa [State.encoding_nil hmode hm] at hrun

/-- A whole session (41_encoder.md R105). -/
theorem run_encSession : run (issue (encSession b)) s = .next ((s.encoded b).setPending []) := by
  have hsplit : issue (encSession b) = issue (encBytes b) ++ [.command (encodeCmd .encEnd)] := by
    simp [issue, encSession]
  have ⟨_, hmode, _⟩ := hs
  have hend := (interact_encodeCmd .encEnd _).trans (exec_encEnd_encoding hmode hm b)
  rw [hsplit, run_append _ (run_encBytes b hs hm), run_setPending, run_cons [] hend, run_nil]

end

/-- A register read, which an encode session may have anywhere between its commands (41_encoder.md R108). -/
def Interaction.isRead : Interaction → Bool
  | .readRegister _ => true
  | _ => false

theorem Interaction.isRead_iff {x : Interaction} : x.isRead = true ↔ ∃ i, x = .readRegister i := by
  cases x <;> simp [isRead]

/-- Register reads leave `out` as it is. -/
theorem run_reads_out {xs : List Interaction} (hxs : ∀ x ∈ xs, x.isRead = true) (s : State) :
    ∃ t, run xs s = .next t ∧ t.out = s.out := by
  induction xs generalizing s with
  | nil => exact ⟨_, run_nil s, rfl⟩
  | cons x xs ih =>
    obtain ⟨hx, hrest⟩ := List.forall_mem_cons.1 hxs
    obtain ⟨i, rfl⟩ := Interaction.isRead_iff.1 hx
    obtain ⟨t, ht, hout⟩ := ih hrest (hostRead i s)
    exact ⟨t, (run_cons xs rfl).trans ht, hout⟩

/-- The rest of an encode session with register reads between its commands: a read records a response and leaves the
session where it is. -/
theorem run_encSession_with_reads_encoding {s : State} (hs : InvMode s) (hm : s.mode = .idle) (pre : List Byte)
    {b : List Byte} {xs : List Interaction} (hxs : xs.filter (!·.isRead) = issue (encSession b)) :
    ∃ t, run xs (s.encoding pre) = .next t ∧ t.out = s.out ++ encRef (pre ++ b) := by
  induction xs generalizing s pre b with
  | nil => cases b <;> cases hxs
  | cons x xs ih =>
    cases hx : x.isRead with
    | true =>
      obtain ⟨i, rfl⟩ := Interaction.isRead_iff.1 hx
      obtain ⟨t, ht, hout⟩ := ih (s := s.respond (.register i ((s.encoding pre).readRegister i))) hs hm pre hxs
      exact ⟨t, (run_cons xs rfl).trans ht, hout⟩
    | false =>
      rw [List.filter_cons_of_pos (by rw [hx]; rfl)] at hxs
      cases b with
      | nil =>
        obtain ⟨rfl, hrest⟩ := List.cons.inj hxs
        obtain ⟨t, ht, hout⟩ := run_reads_out (by simpa using hrest) (s.encoded pre)
        refine ⟨t, (run_cons xs ?_).trans ht, by rw [hout, List.append_nil]; rfl⟩
        exact (interact_encodeCmd .encEnd _).trans (exec_encEnd_encoding hs hm pre)
      | cons d b =>
        obtain ⟨rfl, hrest⟩ := List.cons.inj hxs
        obtain ⟨t, ht, hout⟩ := ih hs hm (pre ++ [d]) hrest
        refine ⟨t, (run_cons xs ?_).trans ht, by rw [hout, List.append_assoc, List.singleton_append]⟩
        exact (interact_encodeCmd _ _).trans (exec_encByte_encoding d s pre)

theorem run_encSession_with_reads {s : State} (hs : BlockInv s) (hm : s.mode = .idle) {b : List Byte}
    {xs : List Interaction} (hxs : xs.filter (!·.isRead) = issue (encSession b)) :
    ∃ t, run xs s = .next t ∧ t.out = s.out ++ encRef b := by
  obtain ⟨-, hmode, -⟩ := hs
  have hrun := run_encSession_with_reads_encoding hmode hm [] hxs
  rwa [State.encoding_nil hmode hm] at hrun

end Sys2Proof.Machine
end

section
/-! The obligations of 41_encoder.md. -/

namespace Sys2Proof.Machine

/-- Settles O10: the mode decides among the body, SEQUENCE_ERROR and no effect, and a word from 0x2100 on has a non-zero
RSV field. -/
theorem encByteEmitsTheCompleteGroups : Obligations.EncByteEmitsTheCompleteGroups := by
  refine ⟨fun d s hs => ?_, fun w s hlow hhigh => step_given_of_illegal (fun hl => ?_) s⟩
  · obtain ⟨hacc, hmode, -⟩ := hs
    have hopen (hm : s.mode = .idle ∨ s.mode = .enc) :=
      (exec_encByte_of_open d hm).trans (congrArg _ (encByteBody_eq_exact d hacc (cnt_le_four hmode hm)))
    have hword := encodeCmd_eq_ofNat (encodeCmd_toNat (.encByte d))
    dsimp only
    split
    next hm => exact hopen (.inl hm)
    next hm => exact hopen (.inr hm)
    next hm => rw [exec_of_forbidden (by simp [hm]) (by simp [hm, allowed]), hword]; rfl
    next hm => exact exec_of_error nofun hm
  · obtain ⟨-, hrsv, -⟩ := (legal_iff_toNat w).1 hl
    omega

/-- Settles O11: the mode decides, and a word above 0x3000 has a non-zero RSV or operand field. -/
theorem encEndPadsAndCloses : Obligations.EncEndPadsAndCloses := by
  refine ⟨fun s hs => ?_, fun w s hlow hhigh => step_given_of_illegal (fun hl => ?_) s⟩
  · split
    next hm => exact exec_encEnd_of_idle hm
    next hm => exact exec_encEnd_of_enc hm
    next hm => rw [exec_of_forbidden (by simp [hm]) (by simp [hm, allowed])]; rfl
    next hm => exact exec_of_error nofun hm
  · obtain ⟨-, hrsv, hopd, -⟩ := (legal_iff_toNat w).1 hl
    have hop : w.toNat / 0x1000 = 0x3 := by omega
    have hzero := hopd (by simp [hop])
    omega

/-- Settles O31: a command in ERROR mode or forbidden appends nothing, and the body of either command appends
symbols. -/
theorem encoderEmitsOnlyAlphabet : Obligations.EncoderEmitsOnlyAlphabet := by
  intro i s hi
  suffices h : ∃ t items, exec i s = .next t ∧ t.out = s.out ++ items ∧ ∀ b ∈ items, ∃ v, b = lut v by
    obtain ⟨t, items, ht, hout, hlut⟩ := h
    refine ⟨t, items, ht, hout, fun b hb => ?_⟩
    obtain ⟨v, rfl⟩ := hlut b hb
    exact lut_mem_ranges v
  obtain ⟨t, ht, ⟨-, -, rfl⟩ | ⟨rfl, -⟩ | ⟨-, -, rfl⟩ | ⟨-, -, -, hB⟩⟩ := exec_cases i s
  · exact ⟨_, [], ht, (List.append_nil _).symm, nofun⟩
  · rcases hi with hi | ⟨d, hi⟩ <;> cases hi
  · exact ⟨_, [], ht, (List.append_nil _).symm, nofun⟩
  · rcases hi with rfl | ⟨d, rfl⟩
    · cases hB
      obtain ⟨items, hout, hlut⟩ := encEndBody_out s
      exact ⟨_, items, ht, hout, hlut⟩
    · cases hB
      obtain ⟨items, hout, -, hlut⟩ := encByteBody_out d s
      exact ⟨_, items, ht, hout, hlut⟩

/-- Settles O14: the counts of the loop, the final symbol, and CNT from the number of bits so far. -/
theorem encEmissionTable : Obligations.EncEmissionTable := by
  refine ⟨fun r hr d s hs hm hcnt => ?_, fun s hs hm => ?_, fun b s hs hm => ?_⟩
  · have hrow : (r.1 + 8) / 5 = r.2.1 ∧ (r.1 + 8) % 5 = r.2.2 := by
      clear hcnt
      revert r
      decide
    obtain ⟨hitems, hrest⟩ := hrow
    obtain ⟨items, hout, hlen, -⟩ := encByteBody_out d s
    refine ⟨_, exec_encByte_of_open d hm, encByteBody_mode d s, ?_, ?_⟩
    · rw [hout, List.length_append, hlen, hcnt, hitems]
    · rw [encByteBody_cnt, hcnt, hrest]
  · obtain ⟨-, hmode, -⟩ := hs
    exact ⟨_, exec_encEnd_eq hmode hm, rfl, rfl, rfl⟩
  · refine ⟨_, run_encBytes b hs hm, ?_⟩
    have hlt := Nat.mod_lt b.length (y := 5) (by decide)
    rw [State.setPending_cnt, State.encoding_cnt_toNat, length_bits, Nat.mul_mod]
    generalize b.length % 5 = k at hlt
    revert k
    decide

/-- Settles O44: the run of the whole session, field by field. -/
theorem encodeSessionComputesEnc : Obligations.EncodeSessionComputesEnc := by
  intro b s hs hm
  rw [run_encSession b hs hm, hm]
  rfl

/-- Settles O45: the state of the session after the bytes. -/
theorem encodeResidualLaw : Obligations.EncodeResidualLaw := by
  intro b s hs hm hb
  have hlen := length_bits b
  refine ⟨_, run_encBytes b hs hm, if_neg hb, ?_, ?_, ?_⟩
  · exact hlen ▸ s.encoding_cnt_toNat b
  · rw [← hlen]
    exact s.encoding_acc_toNat b
  · rw [State.setPending_out, State.encoding_out, List.length_append, length_symbolsOf, hlen]

/-- Settles O49: the length in whole numbers is the ceiling. -/
theorem encodeLengthLaw : Obligations.EncodeLengthLaw := by
  have hlaw (b : List Byte) : ((encRef b).length : ℤ) = ⌈(b.length * 8 / 5 : ℚ)⌉ := by
    have hceil := Rat.ceil_natCast_div_natCast (b.length * 8) 5
    push_cast at hceil
    rw [hceil, length_encRef]
    omega
  refine ⟨hlaw, fun b s hs hm => ⟨_, run_encSession b hs hm, ?_⟩⟩
  have hout : ((s.encoded b).setPending []).out = s.out ++ encRef b := rfl
  rw [hout, List.length_append, Nat.add_sub_cancel_left, hlaw]

/-- Settles O50: both runs append the reference encoding of the bytes. -/
theorem encodeOutputDependsOnItsBytesOnly : Obligations.EncodeOutputDependsOnItsBytesOnly := by
  intro b xs ys s s' hs hs' hm hm' hboth
  have hfilter (zs : List Interaction) (hzs : zs ∈ [xs, ys]) : zs.filter (!·.isRead) = issue (encSession b) := by
    obtain ⟨-, hsession⟩ := hboth zs hzs
    rw [← hsession]
    exact List.filter_congr fun x _ => by cases x <;> rfl
  obtain ⟨t, ht, hout⟩ := run_encSession_with_reads hs hm (hfilter xs (by simp))
  obtain ⟨t', ht', hout'⟩ := run_encSession_with_reads hs' hm' (hfilter ys (by simp))
  exact ⟨t, t', encRef b, ht, ht', hout, hout'⟩

end Sys2Proof.Machine
end

section
/-! SUPPORT. The decoder's commands in the modes that allow them, in exact arithmetic (42_decoder.md R122, R123). -/

namespace Sys2Proof.Machine

/-- INV_ACC where at most seven residual bits are left. -/
theorem acc_lt_of_cnt_le_seven {s : State} (hacc : InvAcc s) (hcnt : s.cnt.toNat ≤ 7) : s.acc.toNat < 128 :=
  hacc.trans_le (Nat.pow_le_pow_right (by decide) hcnt)

/-- A command allowed in IDLE and in DEC answers what its body writes. -/
theorem exec_of_decode_open {i : Instr} {s : State} (hm : s.mode = .idle ∨ s.mode = .dec)
    (hidle : allowed i .idle = true) (hdec : allowed i .dec = true) : ∃ t, exec i s = .next t ∧ Body i s t := by
  rcases hm with hm | hm
  · exact exec_of_allowed (by simp [hm]) (hm ▸ hidle)
  · exact exec_of_allowed (by simp [hm]) (hm ▸ hdec)

section

variable {c : Byte} {s : State} (hm : s.mode = .idle ∨ s.mode = .dec)

include hm

theorem exec_decSym_of_symbol {v : Group} (hc : idx c = some v) : exec (.decSym c) s = .next (decSymBody v s) := by
  obtain ⟨t, ht, ⟨hnone, -⟩ | ⟨v', hv', rfl⟩⟩ := exec_of_decode_open (i := .decSym c) hm rfl rfl
  · cases hnone.symm.trans hc
  · cases hv'.symm.trans hc
    exact ht

/-- A code unit that is no symbol is an error entry, and no bit enters ACC (42_decoder.md R122). -/
theorem exec_decSym_of_no_symbol (hc : idx c = none) :
    exec (.decSym c) s = .next (s.raise .invalidSymbol (encodeCmd (.decSym c))) := by
  obtain ⟨t, ht, ⟨-, rfl⟩ | ⟨v, hv, -⟩⟩ := exec_of_decode_open (i := .decSym c) hm rfl rfl
  · exact ht
  · cases hv.symm.trans hc

theorem exec_decEnd_of_open : exec .decEnd s = .next s.closeSession := by
  obtain ⟨t, ht, rfl⟩ := exec_of_decode_open (i := .decEnd) hm rfl rfl
  exact ht

end

theorem encodeCmd_decSym (c : Byte) : encodeCmd (.decSym c) = BitVec.ofNat 16 (0x4000 + c.toNat) :=
  encodeCmd_eq_ofNat (encodeCmd_toNat (.decSym c))

/-- The byte of the first eight of the `n` bits of the number `x`, or nothing where there are fewer than eight
(42_decoder.md R122). -/
def completeByte (x n : Nat) : List Byte := if n < 8 then [] else [BitVec.ofNat 8 (x / 2 ^ (n - 8))]

theorem length_completeByte {n : Nat} (x : Nat) (h : n < 16) : (completeByte x n).length = n / 8 := by
  unfold completeByte
  split
  · rw [List.length_nil]; omega
  · rw [List.length_singleton]; omega

/-- The body of DEC_SYM in exact arithmetic, with the residual bits and the index as one number. -/
theorem decSymBody_eq_exact (v : Group) {s : State} (hacc : InvAcc s) (hcnt : s.cnt.toNat ≤ 7) :
    decSymBody v s =
      let x := s.acc.toNat * 32 + v.toNat
      let n := s.cnt.toNat + 5
      { s with
        mode := .dec, acc := BitVec.ofNat 12 (x % 2 ^ (n % 8)), cnt := BitVec.ofNat 4 (n % 8)
        out := s.out ++ completeByte x n } := by
  have hx := shiftInGroup_toNat s.acc v (acc_lt_of_cnt_le_seven hacc hcnt)
  unfold decSymBody completeByte
  by_cases hn : 8 ≤ s.cnt.toNat + 5
  · have hrest : s.cnt.toNat + 5 - 8 = (s.cnt.toNat + 5) % 8 := by omega
    simp only [if_pos hn, if_neg (Nat.not_lt.2 hn), byteAt_eq, State.setMode, State.setResidue, State.emit, newestBits,
      hx, hrest]
  · have hrest : (s.cnt.toNat + 5) % 8 = s.cnt.toNat + 5 := by omega
    simp only [if_neg hn, if_pos (Nat.not_le.1 hn), State.setMode, State.setResidue, newestBits, hx, hrest,
      List.append_nil]

end Sys2Proof.Machine
end

section
/-! SUPPORT. Bit sequences and their parts determine each other: a value's bits, and a sequence's groups
(20_memory.md R45 to R47). -/

namespace Sys2Proof.Machine

theorem bool_eq_of_toNat_eq : ∀ {b b' : Bool}, b.toNat = b'.toNat → b = b' := by decide

/-- Sequences of one length are told apart by their values. -/
theorem eq_of_value_eq {l l' : List Bool} (hlen : l.length = l'.length) (h : value l = value l') : l = l' := by
  induction l using List.reverseRecOn generalizing l' with
  | nil => exact (List.length_eq_zero_iff.1 hlen.symm).symm
  | append_singleton l b ih =>
    rcases List.eq_nil_or_concat l' with rfl | ⟨l', b', rfl⟩
    · simp at hlen
    · have hb := b.toNat_lt
      have hb' := b'.toNat_lt
      rw [value_concat, List.concat_eq_append, value_concat] at h
      have hl : l = l' := ih (by simpa using hlen) (by omega)
      have hbit : b = b' := bool_eq_of_toNat_eq (by omega)
      rw [hl, hbit, List.concat_eq_append]

/-- The `w` bits of the number that `w` bits spell are these bits. -/
theorem bitsOf_ofNat_value {w : Nat} {g : List Bool} (h : g.length = w) : bitsOf (BitVec.ofNat w (value g)) = g := by
  subst h
  refine eq_of_value_eq (length_bitsOf _) ?_
  rw [value_bitsOf, BitVec.toNat_ofNat, Nat.mod_eq_of_lt (value_lt g)]

theorem ofNat_value_bitsOf {w : Nat} (v : BitVec w) : BitVec.ofNat w (value (bitsOf v)) = v := by
  rw [value_bitsOf, BitVec.ofNat_toNat, BitVec.setWidth_eq]

theorem length_of_mem_groups {k : Nat} {l g : List Bool} (hg : g ∈ groups k l) : g.length = k := by
  obtain ⟨j, hj, rfl⟩ := List.mem_map.1 hg
  have hend : k * (j + 1) ≤ k * (l.length / k) := Nat.mul_le_mul_left k (List.mem_range.1 hj)
  have hfit : k * (l.length / k) ≤ l.length := Nat.mul_div_le _ _
  rw [Nat.mul_add, Nat.mul_one] at hend
  rw [List.length_take, List.length_drop]
  omega

/-- The groups of a sequence without a short last group are the whole sequence. -/
theorem flatten_groups {k : Nat} (hk : 0 < k) {l : List Bool} (hl : k ∣ l.length) : (groups k l).flatten = l := by
  obtain ⟨m, hm⟩ := hl
  induction m generalizing l with
  | zero =>
    obtain rfl := List.length_eq_zero_iff.1 hm
    rw [groups_of_length_lt hk, List.flatten_nil]
  | succ m ih =>
    rw [Nat.mul_add, Nat.mul_one] at hm
    have hfirst : (l.take k).length = k := by rw [List.length_take]; omega
    have hrest : (l.drop k).length = k * m := by rw [List.length_drop]; omega
    calc (groups k l).flatten = (groups k (l.take k ++ l.drop k)).flatten := by rw [List.take_append_drop]
      _ = l.take k ++ l.drop k := by
        rw [groups_append hk (by rw [hfirst]), groups_of_length_eq hk hfirst, List.flatten_append, ih hrest,
          List.flatten_singleton]
      _ = l := List.take_append_drop k l

end Sys2Proof.Machine
end

section
/-! SUPPORT. The reference decoder: the symbols of a text, the bitstream they spell and its whole bytes (42_decoder.md
R120, R121). -/

namespace Sys2Proof.Machine

/-- A text of valid symbols is the text of some indices. -/
theorem exists_map_lut_eq {t : List Byte} (h : ∀ c ∈ t, ∃ v, idx c = some v) : ∃ vs : List Group, vs.map lut = t := by
  have ht : t ∈ Set.range (List.map lut) := by
    rw [Set.range_list_map]
    intro c hc
    obtain ⟨v, hv⟩ := h c hc
    exact ⟨v, idx_eq_some_iff.1 hv⟩
  exact ht

@[simp] theorem indices_map_lut (vs : List Group) : indices (vs.map lut) = some vs := by
  rw [indices, List.mapM_map]
  exact (Asm.mapM_eq_some_map fun v _ => idx_lut v).trans (congrArg some vs.map_id)

theorem map_lut_of_indices {t : List Byte} {vs : List Group} (h : indices t = some vs) : vs.map lut = t := by
  induction t generalizing vs with
  | nil => cases h; rfl
  | cons c t ih =>
    obtain ⟨v, hv, vs', hvs', rfl⟩ : ∃ v, idx c = some v ∧ ∃ vs', indices t = some vs' ∧ v :: vs' = vs := by
      simpa [indices, Option.bind_eq_some_iff] using h
    rw [List.map_cons, ih hvs', idx_eq_some_iff.1 hv]

/-- The bitstream that the symbols of these indices spell (42_decoder.md R120). -/
def streamOf (vs : List Group) : List Bool := vs.flatMap bitsOf

@[simp] theorem length_streamOf (vs : List Group) : (streamOf vs).length = 5 * vs.length := by
  rw [streamOf, List.length_flatMap]
  simp [Nat.mul_comm]

theorem streamOf_concat (vs : List Group) (v : Group) : streamOf (vs ++ [v]) = streamOf vs ++ bitsOf v := by
  simp [streamOf]

theorem decRef_map_lut (vs : List Group) : decRef (vs.map lut) = some (wholeBytes (streamOf vs)) := by
  rw [decRef, indices_map_lut, streamOf]

/-- The whole bytes of a stream are its complete groups of eight. -/
theorem wholeBytes_eq_map_groups (l : List Bool) :
    wholeBytes l = (groups 8 l).map fun g => BitVec.ofNat 8 (value g) := by
  have hwhole : (l.take (l.length / 8 * 8)).length = l.length / 8 * 8 := by
    rw [List.length_take]
    omega
  have hrest : groups 8 (l.drop (l.length / 8 * 8)) = [] :=
    groups_of_length_lt (by rw [List.length_drop]; omega)
  have hgroups : groups 8 l = groups 8 (l.take (l.length / 8 * 8)) := by
    conv_lhs => rw [← List.take_append_drop (l.length / 8 * 8) l]
    rw [groups_append (by decide) (by rw [hwhole]; exact Nat.dvd_mul_left ..), hrest, List.append_nil]
  rw [wholeBytes, hgroups]

@[simp] theorem length_wholeBytes (l : List Bool) : (wholeBytes l).length = l.length / 8 := by
  rw [wholeBytes_eq_map_groups, List.length_map, length_groups]

theorem wholeBytes_append {u : List Bool} (hu : 8 ∣ u.length) (v : List Bool) :
    wholeBytes (u ++ v) = wholeBytes u ++ wholeBytes v := by
  simp only [wholeBytes_eq_map_groups, groups_append (by decide : 0 < 8) hu, List.map_append]

theorem wholeBytes_append_leftover (l v : List Bool) :
    wholeBytes (l ++ v) = wholeBytes l ++ wholeBytes (leftover 8 l ++ v) := by
  simp only [wholeBytes_eq_map_groups, groups_append_leftover (by decide : 0 < 8) l v, List.map_append]

theorem wholeBytes_of_length_lt {l : List Bool} (h : l.length < 8) : wholeBytes l = [] := by
  rw [wholeBytes_eq_map_groups, groups_of_length_lt h, List.map_nil]

theorem wholeBytes_of_length_eq {l : List Bool} (h : l.length = 8) : wholeBytes l = [BitVec.ofNat 8 (value l)] := by
  rw [wholeBytes_eq_map_groups, groups_of_length_eq (by decide) h, List.map_singleton]

/-- Up to fifteen bits hold at most one byte, the one DEC_SYM emits. -/
theorem wholeBytes_eq_completeByte {l : List Bool} (h : l.length < 16) :
    wholeBytes l = completeByte (value l) l.length := by
  unfold completeByte
  split
  next h8 => exact wholeBytes_of_length_lt h8
  next h8 =>
    have hbyte : (l.take 8).length = 8 := by rw [List.length_take]; omega
    have hrest : wholeBytes (l.drop 8) = [] := wholeBytes_of_length_lt (by rw [List.length_drop]; omega)
    calc wholeBytes l = wholeBytes (l.take 8 ++ l.drop 8) := by rw [List.take_append_drop]
      _ = wholeBytes (l.take 8) := by rw [wholeBytes_append (by rw [hbyte]), hrest, List.append_nil]
      _ = [BitVec.ofNat 8 (value l / 2 ^ (l.length - 8))] := by rw [wholeBytes_of_length_eq hbyte, value_take]

end Sys2Proof.Machine
end

section
/-! SUPPORT. The reference decoder undoes the reference encoder (42_decoder.md R126): the symbols spell the padded
bitstream, and the padding is less than a byte. -/

namespace Sys2Proof.Machine

/-- The indices of the symbols that `enc(b)` consists of. -/
def encIndices (b : List Byte) : List Group := (groups 5 (padBits (bits b))).map fun g => BitVec.ofNat 5 (value g)

theorem map_lut_encIndices (b : List Byte) : (encIndices b).map lut = encRef b := by
  rw [encIndices, List.map_map]
  rfl

theorem exists_padBits_eq (l : List Bool) : ∃ pad, padBits l = l ++ pad ∧ pad.length < 5 := by
  unfold padBits
  split
  next => exact ⟨[], (List.append_nil l).symm, by decide⟩
  next => exact ⟨_, rfl, by rw [List.length_replicate]; omega⟩

/-- Padding completes the last group (41_encoder.md R101). -/
theorem five_dvd_length_padBits (l : List Bool) : 5 ∣ (padBits l).length := by
  unfold padBits
  split
  next h => exact Nat.dvd_of_mod_eq_zero h
  next =>
    rw [List.length_append, List.length_replicate]
    omega

/-- The symbols of `enc(b)` spell the padded bitstream. -/
theorem streamOf_encIndices (b : List Byte) : streamOf (encIndices b) = padBits (bits b) := by
  have hbits : ∀ g ∈ groups 5 (padBits (bits b)), bitsOf (BitVec.ofNat 5 (value g)) = g :=
    fun g hg => bitsOf_ofNat_value (length_of_mem_groups hg)
  rw [streamOf, encIndices, List.flatMap_map, List.flatMap_congr hbits, List.flatMap_id',
    flatten_groups (by decide) (five_dvd_length_padBits _)]

theorem wholeBytes_bits (b : List Byte) : wholeBytes (bits b) = b := by
  induction b with
  | nil => rfl
  | cons d b ih =>
    have hd : (bitsOf d).length = 8 := length_bitsOf d
    have hcons : bits (d :: b) = bitsOf d ++ bits b := rfl
    rw [hcons, wholeBytes_append (by rw [hd]), ih, wholeBytes_of_length_eq hd, ofNat_value_bitsOf,
      List.singleton_append]

/-- The padding completes no byte. -/
theorem wholeBytes_padBits_bits (b : List Byte) : wholeBytes (padBits (bits b)) = b := by
  obtain ⟨pad, hpad, hlt⟩ := exists_padBits_eq (bits b)
  rw [hpad, wholeBytes_append (by rw [length_bits]; exact Nat.dvd_mul_right ..), wholeBytes_bits,
    wholeBytes_of_length_lt (by omega), List.append_nil]

theorem wholeBytes_streamOf_encIndices (b : List Byte) : wholeBytes (streamOf (encIndices b)) = b := by
  rw [streamOf_encIndices, wholeBytes_padBits_bits]

end Sys2Proof.Machine
end

section
/-! SUPPORT. A decode session from IDLE, as a state for each list of indices so far (42_decoder.md R124, R125), and
commands in ERROR mode (60_exceptions.md R156). -/

namespace Sys2Proof.Machine

/-- The bits DEC_SYM has before it: those left over from the symbols of `vs`, then the new symbol's (42_decoder.md
R122). -/
def heldStream (vs : List Group) (v : Group) : List Bool := leftover 8 (streamOf vs) ++ bitsOf v

theorem length_heldStream (vs : List Group) (v : Group) :
    (heldStream vs v).length = (streamOf vs).length % 8 + 5 := by
  rw [heldStream, List.length_append, length_leftover, length_bitsOf]

theorem value_heldStream (vs : List Group) (v : Group) :
    value (heldStream vs v) = value (leftover 8 (streamOf vs)) * 32 + v.toNat := by
  rw [heldStream, value_append, value_bitsOf, length_bitsOf]
  rfl

theorem leftover_streamOf_concat (vs : List Group) (v : Group) :
    leftover 8 (streamOf (vs ++ [v])) = leftover 8 (heldStream vs v) := by
  rw [streamOf_concat, leftover_append_leftover, heldStream]

theorem wholeBytes_streamOf_concat (vs : List Group) (v : Group) :
    wholeBytes (streamOf (vs ++ [v])) =
      wholeBytes (streamOf vs) ++ completeByte (value (heldStream vs v)) (heldStream vs v).length := by
  have hfew : (heldStream vs v).length < 16 := by
    rw [length_heldStream]
    omega
  rw [streamOf_concat, wholeBytes_append_leftover, ← heldStream, wholeBytes_eq_completeByte hfew]

/-- At most seven bits are left over. -/
theorem value_leftover_eight_lt (l : List Bool) : value (leftover 8 l) < 128 := by
  refine (value_lt _).trans_le (Nat.pow_le_pow_right (n := 2) (j := 7) (by decide) ?_)
  rw [length_leftover]
  omega

/-- The state a decode session that began in `s` is in after the symbols of the indices `vs`. -/
def State.decoding (s : State) (vs : List Group) : State :=
  { s with
    mode := if vs = [] then .idle else .dec
    acc := BitVec.ofNat 12 (value (leftover 8 (streamOf vs)))
    cnt := BitVec.ofNat 4 ((streamOf vs).length % 8)
    out := s.out ++ wholeBytes (streamOf vs) }

/-- The state after the whole session. -/
def State.decoded (s : State) (vs : List Group) : State := (s.emit (wholeBytes (streamOf vs))).closeSession

section

variable (s : State) (vs : List Group)

@[simp] theorem State.decoding_out : (s.decoding vs).out = s.out ++ wholeBytes (streamOf vs) := rfl

theorem State.decoding_cnt_toNat : (s.decoding vs).cnt.toNat = (streamOf vs).length % 8 := by
  rw [State.decoding, BitVec.toNat_ofNat]
  omega

theorem State.decoding_acc_toNat : (s.decoding vs).acc.toNat = value (leftover 8 (streamOf vs)) := by
  have hlt := value_leftover_eight_lt (streamOf vs)
  rw [State.decoding, BitVec.toNat_ofNat]
  omega

theorem State.decoding_mode : (s.decoding vs).mode = .idle ∨ (s.decoding vs).mode = .dec :=
  ite_eq_or_eq _ _ _

theorem State.decoding_invAcc : InvAcc (s.decoding vs) := by
  rw [InvAcc, State.decoding_acc_toNat, State.decoding_cnt_toNat, ← length_leftover]
  exact value_lt _

end

/-- No symbol yet: the session has not begun. -/
theorem State.decoding_nil {s : State} (hs : InvMode s) (hm : s.mode = .idle) : s.decoding [] = s := by
  obtain ⟨hidle, -⟩ := hs
  obtain ⟨hacc, hcnt⟩ := hidle hm
  have hout : s.out ++ wholeBytes (streamOf []) = s.out := List.append_nil _
  rw [State.decoding, hout, if_pos rfl, ← hm]
  exact congrArg₂ (fun acc cnt => { s with acc := acc, cnt := cnt }) hacc.symm hcnt.symm

/-- One more symbol (42_decoder.md R122 against R120). -/
theorem decSymBody_decoding (v : Group) (s : State) (vs : List Group) :
    decSymBody v (s.decoding vs) = s.decoding (vs ++ [v]) := by
  have hvalue : (s.decoding vs).acc.toNat * 32 + v.toNat = value (heldStream vs v) := by
    rw [State.decoding_acc_toNat, value_heldStream]
  have hlength : (s.decoding vs).cnt.toNat + 5 = (heldStream vs v).length := by
    rw [State.decoding_cnt_toNat, length_heldStream]
  have hrest : (streamOf (vs ++ [v])).length % 8 = (heldStream vs v).length % 8 := by
    rw [← length_leftover, leftover_streamOf_concat, length_leftover]
  have hmode : (s.decoding (vs ++ [v])).mode = .dec := if_neg (List.concat_ne_nil v vs)
  rw [decSymBody_eq_exact v (s.decoding_invAcc vs) (by rw [State.decoding_cnt_toNat]; omega)]
  simp only [hvalue, hlength, ← value_leftover, ← leftover_streamOf_concat, State.decoding_out, List.append_assoc,
    ← wholeBytes_streamOf_concat]
  rw [← hrest, ← hmode]
  rfl

theorem exec_decSym_decoding (v : Group) (s : State) (vs : List Group) :
    exec (.decSym (lut v)) (s.decoding vs) = .next (s.decoding (vs ++ [v])) := by
  rw [exec_decSym_of_symbol (s.decoding_mode vs) (idx_lut v), decSymBody_decoding]

/-- The end of the session, which in IDLE mode is an empty one. -/
theorem exec_decEnd_decoding (s : State) (vs : List Group) : exec .decEnd (s.decoding vs) = .next (s.decoded vs) :=
  exec_decEnd_of_open (s.decoding_mode vs)

/-- A decode session goes on symbol by symbol. -/
theorem run_decSyms_decoding (s : State) (pre vs : List Group) :
    run (issue (decSyms (vs.map lut))) (s.decoding pre) = .next ((s.decoding (pre ++ vs)).setPending []) := by
  induction vs generalizing pre with
  | nil => rw [List.append_nil]; rfl
  | cons v vs ih =>
    have hsym := (interact_encodeCmd _ _).trans (exec_decSym_decoding v s pre)
    exact (run_cons (issue (decSyms (vs.map lut))) hsym).trans (by rw [ih, List.append_assoc, List.singleton_append])

theorem issue_append (is js : List Instr) : issue (is ++ js) = issue is ++ issue js := List.map_append

/-- In ERROR mode commands other than CLR have no effect (60_exceptions.md R156). -/
theorem run_of_error {s : State} (hm : s.mode = .error) {is : List Instr} (his : ∀ i ∈ is, i ≠ .clr) :
    run (issue is) s = .next (s.setPending []) := by
  induction is with
  | nil => exact run_nil s
  | cons i is ih =>
    obtain ⟨hi, his⟩ := List.forall_mem_cons.1 his
    exact (run_cons (issue is) ((interact_encodeCmd i s).trans (exec_of_error hi hm))).trans (ih his)

/-- A decode session does not contain CLR. -/
theorem ne_clr_of_mem_decSession {t : List Byte} : ∀ i ∈ decSession t, i ≠ .clr := by
  simp only [decSession, decSyms, List.forall_mem_append, List.forall_mem_map, List.forall_mem_singleton]
  exact ⟨fun _ _ => nofun, nofun⟩

section

variable {s : State} (vs : List Group) (hs : BlockInv s) (hm : s.mode = .idle)

include hs hm

theorem run_decSyms : run (issue (decSyms (vs.map lut))) s = .next ((s.decoding vs).setPending []) := by
  obtain ⟨-, hmode, -⟩ := hs
  have hrun := run_decSyms_decoding s [] vs
  rwa [State.decoding_nil hmode hm] at hrun

/-- A whole session on valid symbols (42_decoder.md R124). -/
theorem run_decSession : run (issue (decSession (vs.map lut))) s = .next ((s.decoded vs).setPending []) := by
  have hend := (interact_encodeCmd .decEnd _).trans (exec_decEnd_decoding s vs)
  rw [decSession, issue_append, run_append _ (run_decSyms vs hs hm), run_setPending]
  exact run_cons [] hend

/-- A session that meets its first invalid symbol after the symbols of `vs`: error entry there, and no effect of what
follows (42_decoder.md R124). -/
theorem run_decSession_of_no_symbol {c : Byte} (hc : idx c = none) (post : List Byte) :
    run (issue (decSession (vs.map lut ++ c :: post))) s =
      .next (((s.decoding vs).raise .invalidSymbol (encodeCmd (.decSym c))).setPending []) := by
  have hsplit : decSession (vs.map lut ++ c :: post) = decSyms (vs.map lut) ++ .decSym c :: decSession post := by
    simp [decSession, decSyms]
  have hraise := (interact_encodeCmd (.decSym c) _).trans (exec_decSym_of_no_symbol (s.decoding_mode vs) hc)
  rw [hsplit, issue_append, run_append _ (run_decSyms vs hs hm), run_setPending]
  exact (run_cons (issue (decSession post)) hraise).trans (run_of_error rfl ne_clr_of_mem_decSession)

end

end Sys2Proof.Machine
end

section
/-! The obligations of 42_decoder.md. -/

namespace Sys2Proof.Machine

/-- Settles O12: the mode decides among the body, SEQUENCE_ERROR and no effect, and IDX decides between the body and
INVALID_SYMBOL; a word from 0x4100 on has a non-zero RSV field. -/
theorem decSymEmitsTheCompleteByte : Obligations.DecSymEmitsTheCompleteByte := by
  refine ⟨fun c s hs => ?_, fun w s hlow hhigh => step_given_of_illegal (fun hl => ?_) s⟩
  · obtain ⟨hacc, hmode, -⟩ := hs
    have hword := encodeCmd_decSym c
    have hsymbol (hm : s.mode = .idle ∨ s.mode = .dec) {v : Group} (hc : idx c = some v) :=
      (exec_decSym_of_symbol hm hc).trans (congrArg _ (decSymBody_eq_exact v hacc (cnt_le_seven hmode)))
    have hnone (hm : s.mode = .idle ∨ s.mode = .dec) (hc : idx c = none) :
        exec (.decSym c) s = .next (s.inError .invalidSymbol (BitVec.ofNat 16 (0x4000 + c.toNat))) :=
      hword ▸ exec_decSym_of_no_symbol hm hc
    cases hm : s.mode with
    | idle => cases hc : idx c with
      | none => exact hnone (.inl hm) hc
      | some v => exact hsymbol (.inl hm) hc
    | dec => cases hc : idx c with
      | none => exact hnone (.inr hm) hc
      | some v => exact hsymbol (.inr hm) hc
    | enc => rw [exec_of_forbidden (by simp [hm]) (by simp [hm, allowed]), hword]; rfl
    | error => exact exec_of_error nofun hm
  · obtain ⟨-, hrsv, -⟩ := (legal_iff_toNat w).1 hl
    omega

/-- Settles O46: the runs of a whole session and of a session that meets an invalid symbol, on the text of the valid
symbols' indices. -/
theorem decodeSessionComputesDec : Obligations.DecodeSessionComputesDec := by
  refine ⟨fun t s hs hm ht => ?_, fun pre c post s hs hm hpre hc => ?_⟩
  · obtain ⟨vs, rfl⟩ := exists_map_lut_eq ht
    refine ⟨_, decRef_map_lut vs, ?_⟩
    rw [run_decSession vs hs hm, hm]
    rfl
  · obtain ⟨vs, rfl⟩ := exists_map_lut_eq hpre
    refine ⟨_, _, decRef_map_lut vs, ?_, run_decSession_of_no_symbol vs hs hm hc post, rfl, rfl, rfl, ?_⟩
    · rw [length_wholeBytes, length_streamOf, List.length_map]
    · exact encodeCmd_decSym c

/-- Settles O47: the state of the session after the symbols, and the counts of the exact body row by row. -/
theorem decodeResidualLaw : Obligations.DecodeResidualLaw := by
  refine ⟨fun t vs s hs hm ht hvs => ?_, fun r hr c v s hs hm hc hcnt => ?_⟩
  · obtain rfl := map_lut_of_indices hvs
    have hlen : (streamOf vs).length = 5 * (vs.map lut).length := by rw [length_streamOf, List.length_map]
    refine ⟨_, run_decSyms vs hs hm, if_neg fun hnil => ht (by rw [hnil, List.map_nil]), ?_, ?_, ?_⟩
    · exact hlen ▸ s.decoding_cnt_toNat vs
    · rw [← hlen]
      exact s.decoding_acc_toNat vs
    · rw [State.setPending_out, State.decoding_out, List.length_append, length_wholeBytes, hlen]
  · have hrow : (r.1 + 5) / 8 = r.2.1 ∧ (r.1 + 5) % 8 = r.2.2 ∧ r.1 + 5 < 16 := by
      clear hcnt
      revert r
      decide
    obtain ⟨hitems, hrest, hfew⟩ := hrow
    obtain ⟨hacc, hmode, -⟩ := hs
    refine ⟨_, exec_decSym_of_symbol hm hc, ?_⟩
    rw [decSymBody_eq_exact v hacc (cnt_le_seven hmode), hcnt]
    refine ⟨rfl, ?_, ?_⟩
    · rw [List.length_append, length_completeByte _ hfew, hitems]
    · rw [BitVec.toNat_ofNat, hrest]
      omega

/-- Settles O48: the symbols of the encoding spell the bytes and a padding that completes no byte. -/
theorem roundTrip : Obligations.RoundTrip := by
  refine ⟨fun b => ?_, fun b s hs hm => ?_⟩
  · rw [← map_lut_encIndices, decRef_map_lut, wholeBytes_streamOf_encIndices]
  · have hencoded : BlockInv (s.encoded b) := blockInv_closeSession (blockInv_emit hs) (by simp [hm])
    have hdec := run_decSession (encIndices b) hencoded rfl
    rw [map_lut_encIndices, State.decoded, wholeBytes_streamOf_encIndices] at hdec
    rw [run_append _ (run_encSession b hs hm), run_setPending, hdec, hm]
    rfl

/-- Settles O51: the length law of the encoder leaves out the three lengths; the block decodes without error whatever
the length is. -/
theorem decodingIsLossy : Obligations.DecodingIsLossy := by
  refine ⟨by decide, by decide, fun t ht b henc => ?_, fun t s hs hm _ ht => ?_⟩
  · have hlen := length_encRef b
    rw [henc] at hlen
    omega
  · obtain ⟨vs, rfl⟩ := exists_map_lut_eq ht
    have ⟨_, ⟨_, _, _, _, hnone⟩, _⟩ := hs
    obtain ⟨hcode, -⟩ := hnone (by simp [hm])
    exact ⟨_, run_decSession vs hs hm, rfl, hcode⟩

/-- Settles O13: the mode decides; in IDLE there is no session to close, and a word above 0x5000 has a non-zero RSV or
operand field. -/
theorem decEndDiscardsAndCloses : Obligations.DecEndDiscardsAndCloses := by
  refine ⟨fun s => ?_, fun s hs hm => ?_, fun w s hlow hhigh => step_given_of_illegal (fun hl => ?_) s⟩
  · split
    next hm => exact exec_decEnd_of_open (.inl hm)
    next hm => exact exec_decEnd_of_open (.inr hm)
    next hm => rw [exec_of_forbidden (by simp [hm]) (by simp [hm, allowed])]; rfl
    next hm => exact exec_of_error nofun hm
  · obtain ⟨-, hmode, -⟩ := hs
    rw [exec_decEnd_of_open (.inl hm), closeSession_of_idle hmode hm]
  · obtain ⟨-, hrsv, hopd, -⟩ := (legal_iff_toNat w).1 hl
    have hop : w.toNat / 0x1000 = 0x5 := by omega
    have hzero := hopd (by simp [hop])
    omega

end Sys2Proof.Machine
end

section
/-! SUPPORT. NOP in every mode, and the legal words of the opcodes without an operand (43_control.md R140, R141). -/

namespace Sys2Proof.Machine

/-- ERROR mode ignores NOP, and every other mode allows it, with nothing to write (43_control.md R140). -/
theorem exec_nop (s : State) : exec .nop s = .next s := by
  by_cases hm : s.mode = .error
  · exact exec_of_error nofun hm
  · obtain ⟨t, ht, hbody⟩ := exec_of_allowed (i := .nop) hm rfl
    have hsame : t = s := hbody
    rwa [hsame] at ht

/-- A legal word of an opcode without an operand has no bit below the opcode (30_encoding.md R63). -/
theorem toNat_eq_of_legal_of_no_operand {w : Word} (hl : legal w = true)
    (hop : w.toNat / 0x1000 ∈ [0x0, 0x1, 0x3, 0x5]) : w.toNat = 0x1000 * (w.toNat / 0x1000) := by
  obtain ⟨-, hrsv, hopd, -⟩ := (legal_iff_toNat w).1 hl
  have hzero := hopd hop
  omega

end Sys2Proof.Machine
end

section
/-! The obligations of 43_control.md. -/

namespace Sys2Proof.Machine

/-- Settles O6: NOP answers the state itself, and the only legal word of opcode 0 is 0x0000. -/
theorem nopHasNoEffect : Obligations.NopHasNoEffect := by
  refine ⟨exec_nop, rfl, fun w s hhigh hne => step_given_of_illegal (fun hl => hne ?_) s⟩
  have hop : w.toNat / 0x1000 = 0 := by omega
  have hword := toNat_eq_of_legal_of_no_operand hl (by simp [hop])
  rw [hop] at hword
  exact BitVec.eq_of_toNat_eq hword

/-- Settles O7: the meaning of CLR is the clear itself, with no check of the mode, and the only legal word of opcode 1 is
0x1000. -/
theorem clrClearsAllButOut : Obligations.ClrClearsAllButOut := by
  refine ⟨fun _ => rfl, rfl, fun w s hlow hhigh => step_given_of_illegal (fun hl => ?_) s⟩
  have hop : w.toNat / 0x1000 = 1 := by omega
  have hword := toNat_eq_of_legal_of_no_operand hl (by simp [hop])
  omega

end Sys2Proof.Machine
end

section
/-! SUPPORT. What an interaction does about errors (60_exceptions.md R150 to R161): it enters ERROR mode for one of the
three causes, leaves it, changes nothing of the block, or runs a command without an error. -/

namespace Sys2Proof.Machine

/-- The seven elements of the block (10_state.md R20) are the same in both states. -/
structure SameBlock (s t : State) : Prop where
  mode : t.mode = s.mode
  acc : t.acc = s.acc
  cnt : t.cnt = s.cnt
  ecode : t.ecode = s.ecode
  ecmd : t.ecmd = s.ecmd
  result : t.result = s.result
  out : t.out = s.out

theorem SameBlock.refl (s : State) : SameBlock s s := ⟨rfl, rfl, rfl, rfl, rfl, rfl, rfl⟩

theorem SameBlock.trans {s t u : State} (h : SameBlock s t) (h' : SameBlock t u) : SameBlock s u :=
  ⟨h'.mode.trans h.mode, h'.acc.trans h.acc, h'.cnt.trans h.cnt, h'.ecode.trans h.ecode, h'.ecmd.trans h.ecmd,
    h'.result.trans h.result, h'.out.trans h.out⟩

theorem sameBlock_setPending (s : State) (xs : List Interaction) : SameBlock s (s.setPending xs) :=
  ⟨rfl, rfl, rfl, rfl, rfl, rfl, rfl⟩

theorem sameBlock_respond (s : State) (r : Response) : SameBlock s (s.respond r) := ⟨rfl, rfl, rfl, rfl, rfl, rfl, rfl⟩

theorem sameBlock_hostTake (s : State) : SameBlock s (hostTake s) := by
  rcases hostTake_cases s with ⟨b, -, heq⟩ | ⟨-, heq⟩
  · rw [heq]
    exact ⟨rfl, rfl, rfl, rfl, rfl, rfl, rfl⟩
  · exact heq ▸ sameBlock_respond s _

/-- What the rules R151 to R153 ask of the word `w` for the error `e` in a mode other than ERROR. -/
def ErrorCause (m : Mode) (w : Word) : ErrorCode → Prop
  | .noError => False
  | .invalidSymbol => ∃ c, idx c = none ∧ (decodeCmd w = .ok (.decSym c) ∨ decodeCmd w = .ok (.lutIdx c))
  | .illegalCommand => legal w = false
  | .sequenceError => ∃ i, decodeCmd w = .ok i ∧ allowed i m = false

/-- An interaction is the word of a command that enters ERROR mode, as 60_exceptions.md R155 writes it. -/
def EntersError (x : Interaction) (s t : State) : Prop :=
  s.mode ≠ .error ∧ ∃ w e, x = .command w ∧ ErrorCause s.mode w e ∧ t = s.raise e w

/-- The four effects of an interaction that leads from `s` to `t`. -/
inductive ErrorEffect (x : Interaction) (s t : State) : Prop where
  | entry (h : EntersError x s t)
  | exit (hx : x = .command 0x1000 ∨ x = .assertReset) (hmode : t.mode = .idle) (hcode : t.ecode = .noError)
  | unchanged (h : SameBlock s t)
  | noError (hx : ∃ w, x = .command w) (hs : s.mode ≠ .error) (ht : t.mode ≠ .error) (hcode : t.ecode = s.ecode)

theorem ErrorCause.ne_noError {m : Mode} {w : Word} {e : ErrorCode} (h : ErrorCause m w e) : e ≠ .noError := by
  rintro rfl
  exact h

theorem legal_eq_false_of_decode {w : Word} {r : IllegalReason} (h : decodeCmd w = .error r) : legal w = false := by
  rcases decodeCmd_fits w with ⟨i, hi, -⟩ | ⟨-, hl⟩
  · cases hi.symm.trans h
  · exact hl

/-- The body of an allowed command other than CLR raises INVALID_SYMBOL on a code unit without an index, or no error
(60_exceptions.md R151). -/
theorem body_error_cases {i : Instr} {s t : State} (hi : i ≠ .clr) (hm : s.mode ≠ .error) (hB : Body i s t) :
    (∃ c, idx c = none ∧ (i = .decSym c ∨ i = .lutIdx c) ∧ t = s.raise .invalidSymbol (encodeCmd i)) ∨
    (t.mode ≠ .error ∧ t.ecode = s.ecode) := by
  cases i with
  | nop => cases hB; exact .inr ⟨hm, rfl⟩
  | clr => exact absurd rfl hi
  | encByte d => cases hB; exact .inr ⟨nofun, rfl⟩
  | encEnd =>
    rcases encEndBody_cases s with ⟨-, heq⟩ | ⟨-, items, -, heq⟩
    · cases hB.trans heq
      exact .inr ⟨hm, rfl⟩
    · cases hB.trans heq
      exact .inr ⟨nofun, rfl⟩
  | decSym c =>
    rcases hB with ⟨hc, rfl⟩ | ⟨v, -, rfl⟩
    · exact .inl ⟨c, hc, .inl rfl, rfl⟩
    · obtain ⟨items, n, heq, -⟩ := decSymBody_eq v s
      exact .inr (heq ▸ ⟨nofun, rfl⟩)
  | decEnd => cases hB; exact .inr ⟨nofun, rfl⟩
  | lutSym v => cases hB; exact .inr ⟨hm, rfl⟩
  | lutIdx c =>
    rcases hB with ⟨hc, rfl⟩ | ⟨v, -, rfl⟩
    · exact .inl ⟨c, hc, .inr rfl, rfl⟩
    · exact .inr ⟨hm, rfl⟩

/-- The command step (60_exceptions.md R154) on a legal word. -/
theorem exec_errorEffect {w : Word} {i : Instr} {s t : State} (hd : decodeCmd w = .ok i) (h : exec i s = .next t) :
    ErrorEffect (.command w) s t := by
  have hw := decodeCmd_eq_ok_iff.1 hd
  obtain ⟨t', ht', hc⟩ := exec_cases i s
  cases ht'.symm.trans h
  rcases hc with ⟨-, -, rfl⟩ | ⟨rfl, rfl⟩ | ⟨hm, ha, rfl⟩ | ⟨hm, hi, -, hB⟩
  · exact .unchanged (.refl _)
  · exact .exit (.inl (congrArg _ hw.symm)) rfl rfl
  · exact .entry ⟨hm, w, .sequenceError, rfl, ⟨i, hd, ha⟩, by rw [hw]⟩
  · rcases body_error_cases hi hm hB with ⟨c, hc, hsym, rfl⟩ | ⟨ht, hcode⟩
    · have hsym' := hsym.imp (hd.trans ∘ congrArg Except.ok) (hd.trans ∘ congrArg Except.ok)
      exact .entry ⟨hm, w, .invalidSymbol, rfl, ⟨c, hc, hsym'⟩, by rw [hw]⟩
    · exact .noError ⟨w, rfl⟩ hm ht hcode

/-- Every interaction has one of the four effects. -/
theorem interact_errorEffect {x : Interaction} {s t : State} (h : interact x s = .next t) : ErrorEffect x s t := by
  rcases interact_next_cases h with ⟨w, i, rfl, hd, hexec⟩ | ⟨w, r, rfl, hd, rfl⟩ | ⟨i, -, rfl⟩ | ⟨-, rfl⟩ | ⟨hx, rfl⟩
  · exact exec_errorEffect hd hexec
  · rcases illegalCommand_cases w s with ⟨-, heq⟩ | ⟨hm, heq⟩
    · exact .unchanged (heq.symm ▸ .refl s)
    · exact .entry ⟨hm, w, .illegalCommand, rfl, legal_eq_false_of_decode hd, heq⟩
  · exact .unchanged (sameBlock_respond s _)
  · exact .unchanged (sameBlock_hostTake s)
  · exact .exit (.inr hx) rfl rfl

section

variable {x : Interaction} {s t : State} (h : ErrorEffect x s t)

include h

/-- From another mode into ERROR there is only error entry. -/
theorem ErrorEffect.entersError_of_mode (hs : s.mode ≠ .error) (ht : t.mode = .error) : EntersError x s t := by
  cases h with
  | entry h => exact h
  | exit _ hmode _ => cases hmode.symm.trans ht
  | unchanged h => exact absurd (h.mode.symm.trans ht) hs
  | noError _ _ hne _ => exact absurd ht hne

/-- A newly recorded code is that of an error entry. -/
theorem ErrorEffect.entersError_of_ecode (hnew : t.ecode ≠ s.ecode) (ht : t.ecode ≠ .noError) : EntersError x s t := by
  cases h with
  | entry h => exact h
  | exit _ _ hcode => exact absurd hcode ht
  | unchanged h => exact absurd h.ecode hnew
  | noError _ _ _ hcode => exact absurd hcode hnew

/-- In ERROR mode an interaction either leaves the mode, and is CLR or reset, or changes nothing of the block
(60_exceptions.md R156, R157). -/
theorem ErrorEffect.exit_or_sameBlock (hs : s.mode = .error) :
    ((x = .command 0x1000 ∨ x = .assertReset) ∧ t.mode = .idle ∧ t.ecode = .noError) ∨ SameBlock s t := by
  cases h with
  | entry h =>
    obtain ⟨hne, -⟩ := h
    exact absurd hs hne
  | exit hx hmode hcode => exact .inl ⟨hx, hmode, hcode⟩
  | unchanged h => exact .inr h
  | noError _ hne _ _ => exact absurd hs hne

end

/-- A step has the effect of the interaction it performs, and none where nothing waits. -/
theorem step_errorEffect {s t : State} (h : step s = .next t) :
    SameBlock s t ∨ ∃ x rest, s.pending = x :: rest ∧ ErrorEffect x (s.setPending rest) t := by
  rcases step_next_cases h with ⟨-, rfl⟩ | ⟨x, rest, hp, hx⟩
  · exact .inl (.refl _)
  · exact .inr ⟨x, rest, hp, interact_errorEffect hx⟩

section

variable {s t : State} (h : step s = .next t)

include h

/-- A step into ERROR mode performs a command that enters it. -/
theorem step_entersError_of_mode (hs : s.mode ≠ .error) (ht : t.mode = .error) :
    ∃ w rest e, s.pending = .command w :: rest ∧ ErrorCause s.mode w e ∧ t = (s.setPending rest).raise e w := by
  rcases step_errorEffect h with hsame | ⟨x, rest, hp, heffect⟩
  · exact absurd (hsame.mode.symm.trans ht) hs
  · obtain ⟨-, w, e, rfl, hcause, heq⟩ := heffect.entersError_of_mode hs ht
    exact ⟨w, rest, e, hp, hcause, heq⟩

/-- A step that leaves ERROR mode performs CLR or reset (60_exceptions.md R157). -/
theorem step_exit_of_mode (hs : s.mode = .error) (ht : t.mode ≠ .error) :
    ∃ rest, s.pending = .command 0x1000 :: rest ∨ s.pending = .assertReset :: rest := by
  rcases step_errorEffect h with hsame | ⟨x, rest, hp, heffect⟩
  · exact absurd (hsame.mode.trans hs) ht
  · rcases heffect.exit_or_sameBlock hs with ⟨rfl | rfl, -⟩ | hsame
    · exact ⟨rest, .inl hp⟩
    · exact ⟨rest, .inr hp⟩
    · exact absurd (hsame.mode.trans hs) ht

end

/-! The command step on a given word, by the row of 60_exceptions.md R154 that applies. -/

section

variable {w : Word} {s : State}

theorem issueCommand_of_decode_error {r : IllegalReason} (h : decodeCmd w = .error r) (s : State) :
    issueCommand w s = .next (illegalCommand w s) := by
  unfold issueCommand
  rw [h]

theorem issueCommand_of_illegal (hl : legal w = false) (hm : s.mode ≠ .error) :
    issueCommand w s = .next (s.raise .illegalCommand w) := by
  rw [← step_issueNext]
  exact (step_given_of_illegal (by simp [hl]) s).trans (by rw [if_neg hm]; rfl)

theorem issueCommand_of_forbidden {i : Instr} (hd : decodeCmd w = .ok i) (hm : s.mode ≠ .error)
    (ha : allowed i s.mode = false) : issueCommand w s = .next (s.raise .sequenceError w) := by
  rw [issueCommand_of_decode hd, exec_of_forbidden hm ha, decodeCmd_eq_ok_iff.1 hd]

/-- In ERROR mode only the word of CLR has an effect (60_exceptions.md R156). -/
theorem issueCommand_of_error (hm : s.mode = .error) (hw : w ≠ 0x1000) : issueCommand w s = .next s := by
  rcases issueCommand_cases w s with ⟨i, hd, h⟩ | ⟨r, -, h⟩
  · refine h.trans (exec_of_error ?_ hm)
    rintro rfl
    exact hw (decodeCmd_eq_ok_iff.1 hd).symm
  · exact h.trans (congrArg _ (if_pos hm))

end

/-- Outside ERROR mode SEQUENCE_ERROR is raised exactly in the modes that forbid the command (60_exceptions.md R153). -/
theorem exec_eq_sequenceError_iff {i : Instr} {s : State} (hm : s.mode ≠ .error) :
    exec i s = .next (s.raise .sequenceError (encodeCmd i)) ↔ allowed i s.mode = false := by
  refine ⟨fun h => ?_, exec_of_forbidden hm⟩
  obtain ⟨-, w, e, hx, hcause, heq⟩ :=
    (exec_errorEffect (decodeCmd_encodeCmd i) h).entersError_of_mode hm rfl
  obtain rfl : encodeCmd i = w := Interaction.command.inj hx
  obtain rfl : ErrorCode.sequenceError = e := congrArg State.ecode heq
  obtain ⟨j, hj, ha⟩ := hcause
  rw [decodeCmd_encodeCmd] at hj
  exact Except.ok.inj hj ▸ ha

/-- A run of interactions other than CLR and reset keeps the block as it is in ERROR mode. -/
theorem run_sameBlock_of_error {xs : List Interaction} {s : State} (hm : s.mode = .error)
    (hxs : ∀ x ∈ xs, x ≠ .command 0x1000 ∧ x ≠ .assertReset) : ∃ t, run xs s = .next t ∧ SameBlock s t := by
  induction xs generalizing s with
  | nil => exact ⟨_, run_nil s, sameBlock_setPending s []⟩
  | cons x xs ih =>
    obtain ⟨⟨hclr, hreset⟩, hxs⟩ := List.forall_mem_cons.1 hxs
    obtain ⟨u, hu⟩ := interact_completes x s
    rcases (interact_errorEffect hu).exit_or_sameBlock hm with ⟨hx, -⟩ | hsame
    · exact absurd hx (not_or.2 ⟨hclr, hreset⟩)
    · obtain ⟨t, ht, hsame'⟩ := ih (hsame.mode.trans hm) hxs
      exact ⟨t, (run_cons xs hu).trans ht, hsame.trans hsame'⟩

theorem State.err_eq_true_iff {s : State} : s.err = true ↔ s.mode = .error := beq_iff_eq

theorem State.err_eq_false_iff {s : State} : s.err = false ↔ s.mode ≠ .error := beq_eq_false_iff_ne

end Sys2Proof.Machine
end

section
/-! SUPPORT. The items of a session that an error aborts (60_exceptions.md R158, 70_reset_and_hazards.md R186). -/

namespace Sys2Proof.Machine

theorem trace_cons {x : Interaction} {s t : State} (xs : List Interaction) (h : interact x s = .next t) :
    trace (x :: xs) s = t :: trace xs t := by
  rw [trace, h]

/-- A session as a state for each list of operands so far: each operand's command leads on with the session open, and
the items so far are those in `out` after `base`. -/
structure OpenSession {α : Type} (cmd : α → Instr) (state : List α → State) (base : List Byte)
    (items : List α → List Byte) : Prop where
  runs : ∀ l a, exec (cmd a) (state l) = .next (state (l ++ [a]))
  isOpen : ∀ l a, (state (l ++ [a])).mode = .enc ∨ (state (l ++ [a])).mode = .dec
  out : ∀ l, (state l).out = base ++ items l
  grows : ∀ l a, ∃ new, items (l ++ [a]) = items l ++ new
  nil : items [] = []

theorem openSession_encoding (s : State) :
    OpenSession .encByte s.encoding s.out fun b => symbolsOf (bits b) where
  runs b d := exec_encByte_encoding d s b
  isOpen b d := .inl (if_neg (List.concat_ne_nil d b))
  out := s.encoding_out
  grows b d := ⟨_, symbolsOf_bits_concat b d⟩
  nil := rfl

theorem openSession_decoding (s : State) :
    OpenSession (fun v => .decSym (lut v)) s.decoding s.out fun vs => wholeBytes (streamOf vs) where
  runs vs v := exec_decSym_decoding v s vs
  isOpen vs v := .inr (if_neg (List.concat_ne_nil v vs))
  out := s.decoding_out
  grows vs v := ⟨_, wholeBytes_streamOf_concat vs v⟩
  nil := rfl

section

variable {α : Type} {cmd : α → Instr} {state : List α → State} {base : List Byte} {items : List α → List Byte}
  (hS : OpenSession cmd state base items)

include hS

/-- One command appends the items that are new. -/
theorem OpenSession.items_concat (l : List α) (a : α) :
    items l ++ (state (l ++ [a])).out.drop (state l).out.length = items (l ++ [a]) := by
  obtain ⟨new, hnew⟩ := hS.grows l a
  rw [hS.out, hS.out, hnew, ← List.append_assoc, List.drop_left]

/-- A session carries its items along. -/
theorem OpenSession.markItems_trace (pre l : List α) (xs : List Interaction) :
    markItems (items pre) (state pre) (trace (issue (l.map cmd) ++ xs) (state pre)) =
      markItems (items (pre ++ l)) (state (pre ++ l)) (trace xs (state (pre ++ l))) := by
  induction l generalizing pre with
  | nil => rw [List.append_nil]; rfl
  | cons a l ih =>
    have hcmd := (interact_encodeCmd (cmd a) (state pre)).trans (hS.runs pre a)
    have htrace := trace_cons (issue (l.map cmd) ++ xs) hcmd
    refine (congrArg _ htrace).trans ?_
    rw [markItems_open _ _ _ _ (hS.isOpen pre a), hS.items_concat, ih, List.append_assoc, List.singleton_append]

/-- An error entry condemns the items of its session; what follows it is marked on its own. -/
theorem OpenSession.voidItems_of_entry (l : List α) {x : Interaction} {u : State} (xs : List Interaction)
    (hx : interact x (state l) = .next u) (hm : u.mode = .error) (hout : u.out = (state l).out) :
    voidItems (issue (l.map cmd) ++ x :: xs) (state []) = items l ++ voidItems xs u := by
  have hmarks := hS.markItems_trace [] l (x :: xs)
  rw [hS.nil, List.nil_append, trace_cons xs hx] at hmarks
  simp [voidItems, emittedItems, hmarks, markItems, hm, hout, List.filter_map, Function.comp_def]

end

/-- In ERROR mode nothing is emitted before CLR or reset (60_exceptions.md R156). -/
theorem emittedItems_of_error {xs : List Interaction} {s : State} (hm : s.mode = .error)
    (hxs : ∀ x ∈ xs, x ≠ .command 0x1000 ∧ x ≠ .assertReset) : emittedItems xs s = [] := by
  unfold emittedItems
  induction xs generalizing s with
  | nil => rfl
  | cons x xs ih =>
    obtain ⟨⟨hclr, hreset⟩, hxs⟩ := List.forall_mem_cons.1 hxs
    obtain ⟨u, hu⟩ := interact_completes x s
    rcases (interact_errorEffect hu).exit_or_sameBlock hm with ⟨hx, -⟩ | hsame
    · exact absurd hx (not_or.2 ⟨hclr, hreset⟩)
    · have hu' := hsame.mode.trans hm
      rw [trace_cons xs hu]
      simp [markItems, hu', hsame.out, ih hu' hxs]

/-- No command of a decode session is CLR or reset. -/
theorem ne_exit_of_mem_issue_decSession {t : List Byte} :
    ∀ x ∈ issue (decSession t), x ≠ .command 0x1000 ∧ x ≠ .assertReset := by
  intro x hx
  obtain ⟨i, hi, rfl⟩ := List.mem_map.1 hx
  refine ⟨fun hclr => ne_clr_of_mem_decSession i hi (encodeCmd_injective ?_), nofun⟩
  exact Interaction.command.inj hclr

/-- The symbols of the complete groups are the first ones of the reference encoding. -/
theorem take_encRef (b : List Byte) : (encRef b).take (8 * b.length / 5) = symbolsOf (bits b) := by
  rw [encRef_eq_symbolsOf, symbolsOf_padBits]
  exact List.take_left' (by rw [length_symbolsOf, length_bits])

end Sys2Proof.Machine
end

section
/-! The obligations of 60_exceptions.md. -/

namespace Sys2Proof.Machine

/-- Settles O17: a step into ERROR mode is an error entry, and a step that stays there changes nothing of the block. -/
theorem errorEntryIsPrecise : Obligations.ErrorEntryIsPrecise := by
  refine ⟨fun s t h hs ht => ?_, fun s t h hs ht => ?_, rfl, rfl, rfl⟩
  · obtain ⟨w, rest, e, hp, hcause, heq⟩ := step_entersError_of_mode h hs ht
    exact ⟨w, rest, e, hp, hcause.ne_noError, heq⟩
  · rcases step_errorEffect h with hsame | ⟨x, rest, -, heffect⟩
    · exact ⟨hsame.ecode, hsame.ecmd⟩
    · rcases heffect.exit_or_sameBlock hs with ⟨-, hidle, -⟩ | hsame
      · cases hidle.symm.trans ht
      · exact ⟨hsame.ecode, hsame.ecmd⟩

/-- Settles O18: the two commands on a code unit without an index, and the cause of an error entry with this code. -/
theorem onlyInvalidSymbolsRaiseInvalidSymbol : Obligations.OnlyInvalidSymbolsRaiseInvalidSymbol := by
  refine ⟨fun c s hm hc => ?_, fun c s hm hc => ?_, fun s t h hs ht => ?_⟩
  · exact encodeCmd_decSym c ▸ exec_decSym_of_no_symbol hm (idx_eq_none_iff_forall_lut_ne.2 hc)
  · rw [← encodeCmd_eq_ofNat (encodeCmd_toNat (.lutIdx c))]
    exact exec_lutIdx_of_idle_of_none hm (idx_eq_none_iff_forall_lut_ne.2 hc)
  · rcases step_errorEffect h with hsame | ⟨x, rest, hp, heffect⟩
    · exact absurd (hsame.ecode.symm.trans ht) hs
    · obtain ⟨-, w, e, rfl, hcause, rfl⟩ := heffect.entersError_of_ecode (fun heq => hs (heq ▸ ht)) (by simp [ht])
      obtain rfl : e = .invalidSymbol := ht
      obtain ⟨c, hc, hd⟩ := hcause
      exact ⟨w, rest, c, hp, idx_eq_none_iff_forall_lut_ne.1 hc, hd⟩

/-- Settles O19: an illegal word is an error entry, and the cause of an entry with this code is an illegal word. -/
theorem exactlyIllegalWordsRaiseIllegalCommand : Obligations.ExactlyIllegalWordsRaiseIllegalCommand := by
  refine ⟨fun s w hl hm => (step_issueNext s w).trans (issueCommand_of_illegal hl hm), fun s t w hl hs h ht => ?_⟩
  have heffect : ErrorEffect (.command w) s t := interact_errorEffect ((step_issueNext s w).symm.trans h)
  obtain ⟨-, w', e, hw, hcause, rfl⟩ := heffect.entersError_of_ecode (fun heq => hs (heq ▸ ht)) (by simp [ht])
  obtain rfl : w = w' := Interaction.command.inj hw
  obtain rfl : e = .illegalCommand := ht
  cases hl.symm.trans hcause

/-- Settles O20: the error is raised where `allowed` is false, which is its table row by row. -/
theorem sequenceErrorTable : Obligations.SequenceErrorTable := by
  intro i s hm
  refine (exec_eq_sequenceError_iff hm).trans ?_
  revert hm
  generalize s.mode = m
  cases i with
  | nop | clr => simp [allowed]
  | encByte _ | encEnd | decSym _ | decEnd | lutSym _ | lutIdx _ => cases m <;> simp [allowed]

/-- Settles O21: the causes of an error entry exclude each other. -/
theorem errorPriority : Obligations.ErrorPriority := by
  refine ⟨fun s w hm => ?_, fun s w hm hl => ?_, fun s w i hm hd ha => ?_, fun s w i hm hd ha => ?_, fun s hm => ?_,
    fun s hm => ?_⟩
  · obtain ⟨t, ht⟩ := interact_completes (.command w) s
    refine ⟨t, (step_issueNext s w).trans ht, ?_⟩
    rcases (interact_errorEffect ht).exit_or_sameBlock hm with ⟨-, -, hcode⟩ | hsame
    · exact .inr hcode
    · exact .inl hsame.ecode
  · exact (step_issueNext s w).trans (issueCommand_of_illegal hl hm)
  · exact (step_issueNext s w).trans (issueCommand_of_forbidden hd hm ha)
  · obtain ⟨t, ht⟩ := interact_completes (.command w) s
    refine ⟨t, (step_issueNext s w).trans ht, fun herr => ?_⟩
    obtain ⟨-, w', e, hw, hcause, heq⟩ := (interact_errorEffect ht).entersError_of_mode hm herr
    obtain rfl : w = w' := Interaction.command.inj hw
    cases e with
    | noError => exact hcause.elim
    | invalidSymbol => exact heq
    | illegalCommand =>
      have hl : legal w = true := (legal_iff_exists_encodeCmd w).2 ⟨i, decodeCmd_eq_ok_iff.1 hd⟩
      cases hl.symm.trans hcause
    | sequenceError =>
      obtain ⟨j, hj, hforbidden⟩ := hcause
      cases hj.symm.trans hd
      cases ha.symm.trans hforbidden
  · exact (step_issueNext s _).trans
      (issueCommand_of_forbidden (decodeCmd_encodeCmd (.decSym 0x41)) (by simp [hm]) (by simp [hm, allowed]))
  · exact (step_issueNext s _).trans (issueCommand_of_illegal rfl (by simp [hm]))

/-- Settles O24: induction over the interactions, none of which is an exit of ERROR mode. -/
theorem firstErrorIsKept : Obligations.FirstErrorIsKept := by
  intro xs s hm hxs
  obtain ⟨t, ht, hsame⟩ := run_sameBlock_of_error hm hxs
  exact ⟨t, ht, hsame.mode.trans hm, hsame.ecode, hsame.ecmd, hsame.acc, hsame.cnt, hsame.result, hsame.out⟩

/-- Settles O52: the error entry condemns the items of its own session, and in ERROR mode nothing is emitted. -/
theorem abortedSessionItemsAreVoid : Obligations.AbortedSessionItemsAreVoid := by
  refine ⟨fun pre c post s hs hm hpre hc => ?_, fun b w s hs hm hb hw => ?_⟩
  · obtain ⟨vs, rfl⟩ := exists_map_lut_eq hpre
    refine ⟨_, decRef_map_lut vs, by rw [length_wholeBytes, length_streamOf, List.length_map], ?_⟩
    obtain ⟨-, hmode, -⟩ := hs
    have hsplit : issue (decSession (vs.map lut ++ c :: post)) =
        issue (vs.map fun v => .decSym (lut v)) ++ .command (encodeCmd (.decSym c)) :: issue (decSession post) := by
      simp [issue, decSession, decSyms]
    have hraise := (interact_encodeCmd (.decSym c) _).trans (exec_decSym_of_no_symbol (s.decoding_mode vs) hc)
    have hvoid := (openSession_decoding s).voidItems_of_entry vs (issue (decSession post)) hraise rfl rfl
    rw [State.decoding_nil hmode hm, ← hsplit] at hvoid
    rw [hvoid, voidItems, emittedItems_of_error rfl ne_exit_of_mem_issue_decSession]
    exact List.append_nil _
  · obtain ⟨-, hmode, -⟩ := hs
    have henc : (s.encoding b).mode = .enc := if_neg hb
    obtain ⟨e, hraise⟩ : ∃ e, interact (.command w) (s.encoding b) = .next ((s.encoding b).raise e w) := by
      rcases hw with hl | ⟨i, hd, ha⟩
      · exact ⟨_, issueCommand_of_illegal hl (by simp [henc])⟩
      · exact ⟨_, issueCommand_of_forbidden hd (by simp [henc]) (henc ▸ ha)⟩
    have hvoid := (openSession_encoding s).voidItems_of_entry b [] hraise rfl rfl
    rw [State.encoding_nil hmode hm] at hvoid
    rw [take_encRef]
    exact hvoid.trans (List.append_nil _)

/-- Settles O15: a step is the command step on the oldest word. -/
theorem stepRunsTheDecodedCommand : Obligations.StepRunsTheDecodedCommand := by
  refine ⟨fun s w i rest hp hd => ?_, fun s w e rest hp hd => ?_, step_of_idle⟩
  · exact (step_of_pending s _ rest hp).trans (issueCommand_of_decode hd _)
  · exact (step_of_pending s _ rest hp).trans (issueCommand_of_decode_error hd _)

/-- Settles O16. -/
theorem stepNeverStops : Obligations.StepNeverStops := step_completes

/-- Settles O22: a command other than CLR is ignored by the command step's first check, and so is an illegal word. -/
theorem errorModeIgnoresAllButClr : Obligations.ErrorModeIgnoresAllButClr :=
  fun s w hm hw => (step_issueNext s w).trans (issueCommand_of_error hm hw)

/-- Settles O23: the states that CLR and reset leave, and the two exits of `ErrorEffect`. -/
theorem onlyClrAndResetLeaveError : Obligations.OnlyClrAndResetLeaveError := by
  refine ⟨fun s _ => ?_, fun s rest _ hp => ?_, fun s t hs h ht => step_exit_of_mode h hs ht⟩
  · exact (step_issueNext s _).trans (issueCommand_of_decode (decodeCmd_encodeCmd .clr) s)
  · exact ⟨hostReset (s.setPending rest), step_of_pending s _ rest hp, rfl, rfl, rfl, rfl, rfl, rfl⟩

/-- Settles O34: of the four effects only the one that changes nothing is open to the other interactions. -/
theorem onlyCommandsAndResetChangeTheBlock : Obligations.OnlyCommandsAndResetChangeTheBlock := by
  intro s t h hne
  have hchanged : ¬SameBlock s t := fun hsame => by
    simp [hsame.mode, hsame.acc, hsame.cnt, hsame.ecode, hsame.ecmd, hsame.result, hsame.out] at hne
  rcases step_errorEffect h with hsame | ⟨x, rest, hp, heffect⟩
  · exact absurd hsame hchanged
  · refine ⟨rest, ?_⟩
    cases heffect with
    | entry h =>
      obtain ⟨-, w, e, rfl, -⟩ := h
      exact .inl ⟨w, hp⟩
    | exit hx _ _ =>
      rcases hx with rfl | rfl
      · exact .inl ⟨0x1000, hp⟩
      · exact .inr hp
    | unchanged hsame => exact absurd ((sameBlock_setPending s rest).trans hsame) hchanged
    | noError hx _ _ _ =>
      obtain ⟨w, rfl⟩ := hx
      exact .inl ⟨w, hp⟩

/-- Settles O40: ERR follows MODE, so its edges are the entry into ERROR mode and the exits. -/
theorem errOutputFollowsMode : Obligations.ErrOutputFollowsMode := by
  refine ⟨fun _ => State.err_eq_true_iff, fun s t h hs ht => ?_, fun s t h hs ht => ?_⟩
  · obtain ⟨w, rest, e, hp, -, heq⟩ :=
      step_entersError_of_mode h (State.err_eq_false_iff.1 hs) (State.err_eq_true_iff.1 ht)
    exact ⟨w, rest, e, hp, heq⟩
  · exact step_exit_of_mode h (State.err_eq_true_iff.1 hs) (State.err_eq_false_iff.1 ht)

end Sys2Proof.Machine
end

section
/-! SUPPORT. The host's side of an interaction: the queue, the count of taken items and what the host got back
(70_reset_and_hazards.md R190; logs 1, 3, 4). -/

namespace Sys2Proof.Machine

/-- An interaction leaves what waits as it is: it does not read the queue and so cannot rewrite it. -/
theorem interact_pending {x : Interaction} {s t : State} (h : interact x s = .next t) : t.pending = s.pending := by
  have hsame : interact x s = .next (t.setPending s.pending) := interact_ignoresQueue x s t s.pending h
  have heq : t = t.setPending s.pending := Host.Outcome.next.inj (h.symm.trans hsame)
  rw [heq, State.setPending_pending]

/-- A command word gives the host nothing back and takes no item. -/
theorem issueCommand_hostSide {w : Word} {s t : State} (h : issueCommand w s = .next t) :
    t.taken = s.taken ∧ t.responses = s.responses := by
  rcases issueCommand_cases w s with ⟨i, -, hexec⟩ | ⟨r, -, hillegal⟩
  · obtain ⟨t', ht', -, -, -, -, -, htaken, -, hresponses⟩ := elementsChangeOnlyUnderTheirWriters i s
    cases ht'.symm.trans (hexec.symm.trans h)
    exact ⟨htaken, hresponses⟩
  · cases hillegal.symm.trans h
    rcases illegalCommand_cases w s with ⟨-, heq⟩ | ⟨-, heq⟩
    · rw [heq]
      exact ⟨rfl, rfl⟩
    · rw [heq]
      exact ⟨rfl, rfl⟩

/-- Where an item is left, the host takes the first one it has not taken. -/
theorem hostTake_of_lt {s : State} (h : s.taken < s.out.length) :
    hostTake s = (s.setTaken (s.taken + 1)).respond (.item (some s.out[s.taken])) := by
  rw [hostTake, List.getElem?_eq_getElem h]

/-- Where none is left, the host gets none (log 4). -/
theorem hostTake_of_le {s : State} (h : s.out.length ≤ s.taken) : hostTake s = s.respond (.item none) := by
  rw [hostTake, List.getElem?_eq_none h]

end Sys2Proof.Machine
end

section
/-! SUPPORT. The marks of a run's items (70_reset_and_hazards.md R186): outside reset `out` only grows, in every state, so
each item is marked once, with the session that emitted it. -/

namespace Sys2Proof.Machine

/-- The body of a command's rule appends to `out`, whatever the state of the block. -/
theorem body_out_extends {i : Instr} {s t : State} (hB : Body i s t) : ∃ items, t.out = s.out ++ items := by
  cases i with
  | nop | clr | decEnd | lutSym _ => cases hB; exact ⟨[], (List.append_nil _).symm⟩
  | encByte d =>
    obtain ⟨items, n, heq, -⟩ := encByteBody_eq d s
    cases hB.trans heq
    exact ⟨items, rfl⟩
  | encEnd =>
    cases hB
    obtain ⟨items, hout, -⟩ := encEndBody_out s
    exact ⟨items, hout⟩
  | decSym c =>
    rcases hB with ⟨-, rfl⟩ | ⟨v, -, rfl⟩
    · exact ⟨[], (List.append_nil _).symm⟩
    · obtain ⟨items, n, heq, -⟩ := decSymBody_eq v s
      exact ⟨items, heq ▸ rfl⟩
  | lutIdx c => rcases hB with ⟨-, rfl⟩ | ⟨v, -, rfl⟩ <;> exact ⟨[], (List.append_nil _).symm⟩

theorem exec_out_extends {i : Instr} {s t : State} (h : exec i s = .next t) : ∃ items, t.out = s.out ++ items := by
  obtain ⟨t', ht', hc⟩ := exec_cases i s
  cases ht'.symm.trans h
  rcases hc with ⟨-, -, rfl⟩ | ⟨-, rfl⟩ | ⟨-, -, rfl⟩ | ⟨-, -, -, hB⟩
  · exact ⟨[], (List.append_nil _).symm⟩
  · exact ⟨[], (List.append_nil _).symm⟩
  · exact ⟨[], (List.append_nil _).symm⟩
  · exact body_out_extends hB

/-- Every interaction but reset appends to `out`. -/
theorem interact_out_extends {x : Interaction} {s t : State} (hx : x ≠ .assertReset) (h : interact x s = .next t) :
    ∃ items, t.out = s.out ++ items := by
  rcases interact_next_cases h with ⟨w, i, -, -, hexec⟩ | ⟨w, r, -, -, rfl⟩ | ⟨i, -, rfl⟩ | ⟨-, rfl⟩ | ⟨hreset, -⟩
  · exact exec_out_extends hexec
  · exact ⟨[], by simp⟩
  · exact ⟨[], by simp [hostRead]⟩
  · exact ⟨[], by simp⟩
  · exact absurd hreset hx

/-- Reset ends in IDLE (70_reset_and_hazards.md R180). -/
theorem ne_assertReset_of_mode {x : Interaction} {s t : State} (h : interact x s = .next t) (hm : t.mode ≠ .idle) :
    x ≠ .assertReset := by
  rintro rfl
  cases h
  exact hm rfl

/-- The run of one more interaction, by the state that interaction leads to; the trace is cut there. -/
theorem trace_append_cons (xs : List Interaction) (x : Interaction) (s : State) :
    ∃ t, run (xs ++ [x]) s = .next (t.setPending []) ∧ ∀ ys, trace (xs ++ x :: ys) s = trace xs s ++ t :: trace ys t := by
  induction xs generalizing s with
  | nil =>
    obtain ⟨t, ht⟩ := interact_completes x s
    exact ⟨t, run_cons [] ht, fun ys => trace_cons ys ht⟩
  | cons y xs ih =>
    obtain ⟨u, hu⟩ := interact_completes y s
    obtain ⟨t, ht, htrace⟩ := ih u
    refine ⟨t, (run_cons _ hu).trans ht, fun ys => ?_⟩
    rw [List.cons_append, trace_cons _ hu, trace_cons _ hu, htrace, List.cons_append]

/-- The marks do not depend on what waited before the run. -/
theorem markItems_trace_setPending (sofar : List Byte) (xs ps : List Interaction) (s : State) :
    markItems sofar (s.setPending ps) (trace xs (s.setPending ps)) = markItems sofar s (trace xs s) := by
  induction xs generalizing sofar s with
  | nil => rfl
  | cons x xs ih =>
    obtain ⟨t, ht⟩ := interact_completes x s
    rw [trace_cons xs ht, trace_cons xs (interact_ignoresQueue x s t ps ht)]
    simp only [markItems, State.setPending_mode, State.setPending_out, ih]

@[simp] theorem voidItems_setPending (xs ps : List Interaction) (s : State) :
    voidItems xs (s.setPending ps) = voidItems xs s := by
  simp only [voidItems, emittedItems, markItems_trace_setPending]

/-- A run whose items all carry one mark has all of them to discard, or none. -/
theorem voidItems_of_emittedItems {xs : List Interaction} {s : State} {items : List Byte} {b : Bool}
    (h : emittedItems xs s = items.map (·, b)) : voidItems xs s = if b then items else [] := by
  cases b <;> simp [voidItems, h, List.filter_map, Function.comp_def]

/-- Where a run reaches IDLE or ERROR, the items to discard before and after are independent. -/
theorem voidItems_append {xs : List Interaction} {s t : State} (ys : List Interaction) (h : run xs s = .next t)
    (hm : t.mode = .idle ∨ t.mode = .error) : voidItems (xs ++ ys) s = voidItems xs s ++ voidItems ys t := by
  rcases List.eq_nil_or_concat' xs with rfl | ⟨pre, x, rfl⟩
  · cases (run_nil s).symm.trans h
    rw [voidItems_setPending]
    rfl
  · obtain ⟨u, hu, htrace⟩ := trace_append_cons pre x s
    cases hu.symm.trans h
    have hmarks : emittedItems (pre ++ [x] ++ ys) s = emittedItems (pre ++ [x]) s ++ emittedItems ys u := by
      have hcut := markItems_append [] s u (trace pre s) (trace ys u) hm
      simpa only [emittedItems, List.append_assoc, List.singleton_append, htrace, trace] using hcut
    rw [voidItems_setPending, voidItems, hmarks, List.filter_append, List.map_append]
    rfl

/-- Without reset every item of the run, with those that are carried in, is marked exactly once. -/
theorem map_fst_markItems_trace {xs : List Interaction} (hxs : ∀ x ∈ xs, x ≠ .assertReset) (s : State) :
    ∃ t items, run xs s = .next t ∧ t.out = s.out ++ items ∧
      ∀ sofar, (markItems sofar s (trace xs s)).map (·.1) = sofar ++ items := by
  induction xs generalizing s with
  | nil => exact ⟨_, [], run_nil s, (List.append_nil _).symm, fun sofar => by simp [trace, markItems, Function.comp_def]⟩
  | cons x xs ih =>
    obtain ⟨hx, hxs⟩ := List.forall_mem_cons.1 hxs
    obtain ⟨u, hu⟩ := interact_completes x s
    obtain ⟨new, hnew⟩ := interact_out_extends hx hu
    have hdrop : u.out.drop s.out.length = new := hnew ▸ List.drop_left
    obtain ⟨t, items, ht, hout, hmarks⟩ := ih hxs u
    refine ⟨t, new ++ items, (run_cons xs hu).trans ht, by rw [hout, hnew, List.append_assoc], fun sofar => ?_⟩
    rw [trace_cons xs hu]
    cases hm : u.mode with
    | idle | error => simp [markItems, hm, hdrop, hmarks, Function.comp_def]
    | enc | dec => simp [markItems, hm, hdrop, hmarks]

/-- In a run that keeps its session open up to its last interaction, that interaction decides the one mark of all
items. -/
theorem markItems_trace_of_open {xs : List Interaction} {x : Interaction} {s u : State} (sofar : List Byte)
    (hopen : ∀ ys, ys <+: xs → ys ≠ [] → ∃ t, run ys s = .next t ∧ (t.mode = .enc ∨ t.mode = .dec))
    (hu : run (xs ++ [x]) s = .next u) :
    ∃ items, markItems sofar s (trace (xs ++ [x]) s) = (sofar ++ items).map (·, decide (u.mode = .error)) ∧
      (u.mode = .error → u.out = s.out ++ items) := by
  induction xs generalizing s sofar with
  | nil =>
    obtain ⟨t, ht⟩ := interact_completes x s
    cases (run_cons [] ht).symm.trans hu
    refine ⟨t.out.drop s.out.length, ?_, fun hm => ?_⟩
    · rw [List.nil_append, trace_cons [] ht]
      cases hm : t.mode <;> simp [markItems, trace, hm]
    · have hm : t.mode = .error := hm
      obtain ⟨new, hnew⟩ := interact_out_extends (ne_assertReset_of_mode ht (by simp [hm])) ht
      simp [hnew]
  | cons y xs ih =>
    obtain ⟨t, ht⟩ := interact_completes y s
    have hmode : t.mode = .enc ∨ t.mode = .dec := by
      obtain ⟨t', ht', hmode⟩ := hopen [y] (by simp) (by simp)
      cases (run_cons [] ht).symm.trans ht'
      exact hmode
    have hne : t.mode ≠ .idle := by rcases hmode with hm | hm <;> simp [hm]
    obtain ⟨new, hnew⟩ := interact_out_extends (ne_assertReset_of_mode ht hne) ht
    have hdrop : t.out.drop s.out.length = new := hnew ▸ List.drop_left
    have hrest : ∀ ys, ys <+: xs → ys ≠ [] → ∃ v, run ys t = .next v ∧ (v.mode = .enc ∨ v.mode = .dec) :=
      fun ys hys _ => run_cons ys ht ▸ hopen (y :: ys) (List.cons_prefix_cons.2 ⟨rfl, hys⟩) (List.cons_ne_nil y ys)
    obtain ⟨items, hmarks, hout⟩ := ih (sofar ++ new) hrest ((run_cons _ ht).symm.trans hu)
    refine ⟨new ++ items, ?_, fun hm => by rw [hout hm, hnew, List.append_assoc]⟩
    rw [List.cons_append, trace_cons _ ht, markItems_open _ _ _ _ hmode, hdrop, hmarks, List.append_assoc]

end Sys2Proof.Machine
end

section
/-! The obligations of 70_reset_and_hazards.md. -/

namespace Sys2Proof.Machine

/-- Settles O39: induction on the number of takes, each of which finds an item left. -/
theorem itemsAreTakenInOrder : Obligations.ItemsAreTakenInOrder := by
  intro n
  induction n with
  | zero =>
    intro s _
    rw [List.replicate_zero, run_nil, List.take_zero, List.map_nil, List.append_nil]
    rfl
  | succ n ih =>
    intro s hleft
    have hlt : s.taken < s.out.length := by omega
    have htake : interact .takeItem s = .next (hostTake s) := rfl
    rw [hostTake_of_lt hlt] at htake
    rw [List.replicate_succ, run_cons _ htake, ih _ (show s.taken + 1 + n ≤ s.out.length by omega),
      List.drop_eq_getElem_cons hlt, List.take_succ_cons, List.map_cons]
    simp [State.respond, State.setTaken, Nat.add_comm, Nat.add_left_comm]

/-- Settles O55: the last interaction of a session decides the mark of its items, IDLE and ERROR cut the marks of a run,
and without reset each item is marked once. -/
theorem hostDiscardsAbortedSessions : Obligations.HostDiscardsAbortedSessions := by
  refine ⟨fun xs x s u _ hopen hu => ?_, fun xs ys s t => voidItems_append ys, fun xs s hxs => ?_⟩
  · obtain ⟨items, hmarks, hout⟩ := markItems_trace_of_open [] hopen hu
    rw [voidItems_of_emittedItems hmarks]
    exact ⟨fun hm => by simpa [hm] using hout hm, fun hm => by simp [hm]⟩
  · obtain ⟨t, items, ht, hout, hmarks⟩ := map_fst_markItems_trace hxs s
    exact ⟨t, ht, by rw [hout, emittedItems, hmarks, List.nil_append]⟩

/-- Settles O28: CLR writes what the invariant reads. -/
theorem clrEstablishesInvariant : Obligations.ClrEstablishesInvariant :=
  fun s ht => ⟨s.clear, rfl, blockInv_clear ht⟩

/-- Settles O35: a step is one interaction, off a queue that the interaction does not touch. -/
theorem hostSideOfAStep : Obligations.HostSideOfAStep := by
  refine ⟨fun s t h => ?_, fun s t w rest hp h => ?_, fun s t rest hp h => ?_, fun s rest hp hle => ?_⟩
  · rcases step_next_cases h with ⟨hp, rfl⟩ | ⟨x, rest, hp, hx⟩
    · rw [hp, List.tail_nil]
    · rw [interact_pending hx, hp]
      rfl
  · exact issueCommand_hostSide (s := s.setPending rest) ((step_of_pending s _ rest hp).symm.trans h)
  · cases (step_of_pending s _ rest hp).symm.trans h
    exact ⟨rfl, rfl⟩
  · rw [step_of_pending s _ rest hp]
    exact congrArg _ (hostTake_of_le (s := s.setPending rest) hle)

end Sys2Proof.Machine
end
